-- ==== Sys2Proof/Word.lean ====
section
/-! DEFINITION. The machine's one data type, the byte, and the index of a register (10_state.md R31, 20_memory.md R64). -/

namespace Sys2Proof

/-- A register value, a memory cell, an opcode or an operand byte: 8 bits, unsigned (00_scope.md R17). -/
abbrev Byte := BitVec 8

/-- The number of a general register, 0 to 7 (00_scope.md R8). -/
abbrev RegIdx := Fin 8

end Sys2Proof
end

