-- ==== Sys2Proof/Syntax.lean ====
section
/-! DEFINITION. The 13 instructions, one constructor per row of spec/opcode_table.json (30_encoding.md R85). -/

namespace Sys2Proof

/-- An instruction with its operand bytes as they stand in memory (30_encoding.md R80, R86).
A register operand is the whole operand byte: a byte of 8 to 255 is an operand the encoding admits, on which the
instruction faults (R87), so it is kept here and not cut to three bits (log entry 4). -/
inductive Instr where
  /-- `LDI Rr, imm` (format F2I). -/
  | ldi (r imm : Byte)
  /-- `PRN Rr` (format F1). -/
  | prn (r : Byte)
  /-- `MUL Ra, Rb` (format F2R). -/
  | mul (a b : Byte)
  /-- `PUSH Rr` (format F1). -/
  | push (r : Byte)
  /-- `POP Rr` (format F1). -/
  | pop (r : Byte)
  /-- `HALT` (format F0). -/
  | halt
  /-- `CALL Rr` (format F1). -/
  | call (r : Byte)
  /-- `RET` (format F0). -/
  | ret
  /-- `ADD Ra, Rb` (format F2R). -/
  | add (a b : Byte)
  /-- `JMP Rr` (format F1). -/
  | jmp (r : Byte)
  /-- `JEQ Rr` (format F1). -/
  | jeq (r : Byte)
  /-- `JNE Rr` (format F1). -/
  | jne (r : Byte)
  /-- `CMP Ra, Rb` (format F2R). -/
  | cmp (a b : Byte)
  deriving DecidableEq, Repr

end Sys2Proof
end

