-- ==== Sys2Proof/Decode.lean ====
section
/-! DEFINITION. The opcode byte's fields, the opcode map, the decoder and the encoder (30_encoding.md; 00_scope.md R13). -/

namespace Sys2Proof

/-! ### The fields of the opcode byte (R81–R83) -/

/-- `AA`, bits 7:6: the operand count, `(opcode >> 6) & 0b11` (R81, R82). -/
def operandCount (op : Byte) : Nat := ((op >>> 6) &&& 0b11#8).toNat

/-- `B`, bit 5: the ALU marker, without effect on decoding or execution (R81). -/
def aluMarker (op : Byte) : Bool := (op &&& 0b00100000#8) != 0#8

/-- `C`, bit 4: the handler sets the program counter itself (R81, R83). -/
def setsPC (op : Byte) : Bool := (op &&& 0b00010000#8) != 0#8

/-- `DDDD`, bits 3:0: the identifier within the group (R81). -/
def identifier (op : Byte) : Nat := (op &&& 0b00001111#8).toNat

/-- The instruction's length in bytes, opcode included (R82). -/
def instrLen (op : Byte) : Nat := 1 + operandCount op

/-! ### The opcode map (R85) -/

/-- The names of the 13 opcodes. -/
inductive Opcode where
  | ldi | prn | mul | push | pop | halt | call | ret | add | jmp | jeq | jne | cmp
  deriving DecidableEq, Repr

/-- The opcode byte of each name: the binary column of R85. -/
def Opcode.byte : Opcode → Byte
  | .ldi  => 0b10000010
  | .prn  => 0b01000111
  | .mul  => 0b10100010
  | .push => 0b01000101
  | .pop  => 0b01000110
  | .halt => 0b00000001
  | .call => 0b01010000
  | .ret  => 0b00010001
  | .add  => 0b10100000
  | .jmp  => 0b01010100
  | .jeq  => 0b01010101
  | .jne  => 0b01010110
  | .cmp  => 0b10100111

/-- The rows of the opcode map, in the table's order (R85). -/
def Opcode.all : List Opcode :=
  [.ldi, .prn, .mul, .push, .pop, .halt, .call, .ret, .add, .jmp, .jeq, .jne, .cmp]

/-- The row that a byte matches in all its 8 bits, if there is one (R84). -/
def opcodeOf (op : Byte) : Option Opcode := Opcode.all.find? (fun o => o.byte == op)

/-- What the decoder answers for a defined opcode: `{name, len, setsPC}` (00_scope.md R13). -/
structure Descriptor where
  name   : Opcode
  len    : Nat
  setsPC : Bool
  deriving DecidableEq, Repr

/-- `Decode(op)`: none where the byte is not in the table, else the row with the length and the sets-PC bit that the
byte itself gives (40_fetch_execute.md R103). -/
def decodeOpcode (op : Byte) : Option Descriptor :=
  (opcodeOf op).map fun name => ⟨name, instrLen op, setsPC op⟩

/-- The instruction of an opcode and its operand bytes; an operand byte that the opcode does not have is not looked
at (40_fetch_execute.md R104). -/
def assemble (o : Opcode) (opnd1 opnd2 : Byte) : Instr :=
  match o with
  | .ldi  => .ldi opnd1 opnd2
  | .prn  => .prn opnd1
  | .mul  => .mul opnd1 opnd2
  | .push => .push opnd1
  | .pop  => .pop opnd1
  | .halt => .halt
  | .call => .call opnd1
  | .ret  => .ret
  | .add  => .add opnd1 opnd2
  | .jmp  => .jmp opnd1
  | .jeq  => .jeq opnd1
  | .jne  => .jne opnd1
  | .cmp  => .cmp opnd1 opnd2

/-! ### Decoding a list of bytes -/

/-- Why a list of bytes is no instruction. -/
inductive DecodeError where
  /-- There is no byte to decode. -/
  | noBytes
  /-- The first byte is none of the 13 opcodes (R88). -/
  | unrecognizedOpcode (op : Byte)
  /-- The list ends before the `k`th operand byte, `k` being 1 or 2. -/
  | missingOperand (k : Nat)
  deriving DecidableEq, Repr

/-- The operand bytes of an instruction that has `n` of them, and the bytes after them. -/
def operandBytes : Nat → List Byte → Except DecodeError (Byte × Byte × List Byte)
  | 0, bs => .ok (0, 0, bs)
  | 1, b :: bs => .ok (b, 0, bs)
  | _ + 2, b :: c :: bs => .ok (b, c, bs)
  | _ + 2, [_] => .error (.missingOperand 2)
  | _, [] => .error (.missingOperand 1)

/-- Decode the instruction at the head of a list of bytes: the opcode at the lowest address, then its operands
(R80; 20_memory.md R64). Answers the bytes after the instruction with it. -/
def decode : List Byte → Except DecodeError (Instr × List Byte)
  | [] => .error .noBytes
  | op :: bs =>
    match decodeOpcode op with
    | none => .error (.unrecognizedOpcode op)
    | some d =>
      match operandBytes (d.len - 1) bs with
      | .error e => .error e
      | .ok (opnd1, opnd2, rest) => .ok (assemble d.name opnd1 opnd2, rest)

/-! ### Encoding (R80, R85) -/

/-- The opcode of an instruction. -/
def Instr.opcode : Instr → Opcode
  | .ldi _ _ => .ldi
  | .prn _ => .prn
  | .mul _ _ => .mul
  | .push _ => .push
  | .pop _ => .pop
  | .halt => .halt
  | .call _ => .call
  | .ret => .ret
  | .add _ _ => .add
  | .jmp _ => .jmp
  | .jeq _ => .jeq
  | .jne _ => .jne
  | .cmp _ _ => .cmp

/-- The operand bytes of an instruction, in ascending addresses (R80). -/
def Instr.operands : Instr → List Byte
  | .ldi r imm => [r, imm]
  | .prn r => [r]
  | .mul a b => [a, b]
  | .push r => [r]
  | .pop r => [r]
  | .halt => []
  | .call r => [r]
  | .ret => []
  | .add a b => [a, b]
  | .jmp r => [r]
  | .jeq r => [r]
  | .jne r => [r]
  | .cmp a b => [a, b]

/-- The bytes of an instruction. -/
def encode (i : Instr) : List Byte := i.opcode.byte :: i.operands

/-! ### Words as spec/opcode_table.json numbers them -/

/-- The first three bytes of a word whose least significant byte is the instruction's first: the longest instruction
has three bytes (R89). Bits at and above `nbits` read 0. -/
def tableBytes (nbits w : Nat) : List Byte :=
  [BitVec.ofNat 8 (w % 2 ^ nbits), BitVec.ofNat 8 (w % 2 ^ nbits / 256), BitVec.ofNat 8 (w % 2 ^ nbits / 65536)]

/-- The instruction that the decoder reads from a table row's word of `nbits` bits. -/
def decodeTableWord (nbits w : Nat) : Option Instr :=
  match decode (tableBytes nbits w) with
  | .ok (i, _) => some i
  | .error _ => none

end Sys2Proof
end

