-- ==== Sys2Proof/Config.lean ====
section
/-! DEFINITION. What an implementation fixes. The spec leaves one parameter open, `SP_RESET` (00_scope.md R6, R47). -/

namespace Sys2Proof

/-- The value `Machine.State.reset` gives `x[7]`.
The spec leaves `SP_RESET` open (10_state.md R44, D4) and uses 0xFF in its examples.
DESIGN CHOICE, unsafe: log entry 1. `Machine.construct` takes the parameter as an argument, and the statements about
construction hold for every value of it. -/
def Config.spReset : Byte := 0xFF

end Sys2Proof
end

