-- ==== Sys2Proof/Machine/State.lean ====
section
/-! DEFINITION. The machine's state, the reasons a step can stop, and the state right after reset (10_state.md). -/

namespace Sys2Proof.Machine

/-- The run state (10_state.md R38). HALTED and FAULTED are terminal. -/
inductive RunState where
  | running
  | halted
  | faulted
  deriving DecidableEq, Repr

/-- The causes of a fault (60_exceptions.md R200). The third is reserved: nothing raises it (R203). -/
inductive FaultCause where
  | unrecognizedOpcode
  | outOfRange
  | unsupportedOperation
  deriving DecidableEq, Repr

/-- The kinds of OutOfRange (60_exceptions.md R202). -/
inductive RangeKind where
  | fetch
  | reg
  | retAddr
  | mem
  deriving DecidableEq, Repr

/-- The info of a fault: the opcode byte (R201), or the kind and the offending value (R202). -/
inductive FaultInfo where
  | opcode (op : Byte)
  | range (kind : RangeKind) (value : Nat)
  deriving DecidableEq, Repr

/-- What a `raise` names: the cause and its info (00_scope.md R18). -/
structure FaultEvent where
  cause : FaultCause
  info  : FaultInfo
  deriving DecidableEq, Repr

/-- The fault record of a FAULTED machine (10_state.md R39). -/
structure FaultRecord where
  cause : FaultCause
  pc    : Nat
  info  : FaultInfo
  deriving DecidableEq, Repr

/-- The flag register: three separate bits, with no byte layout (10_state.md R36, R42). -/
structure Flags where
  /-- Equal -/
  e : Bool
  /-- Less -/
  l : Bool
  /-- Greater -/
  g : Bool
  deriving DecidableEq, Repr

/-- The memory array, as the cells that do not read 0, in rising address order (log entry 6). -/
abbrev Memory := List Host.Cell

/-- The register file (10_state.md R31). -/
abbrev RegFile := Vector Byte 8

/-- The complete architectural state: the tuple of 10_state.md R30. -/
structure State where
  /-- The memory array: code, data and stack (R40). -/
  mem   : Memory
  /-- R0 to R7; R7 is the stack pointer (R31, R32). -/
  x     : RegFile
  /-- The program counter, 0 to 256 (R34, R37); the bound is part of `State.Inv` (log entry 5). -/
  pc    : Nat
  /-- The flag register (R36). -/
  fl    : Flags
  /-- The run state (R38). -/
  run   : RunState
  /-- The fault record (R39). -/
  fault : Option FaultRecord
  /-- The values PRN has emitted, first one first (R41). -/
  out   : List Byte
  deriving DecidableEq, Repr

/-- Why no next state exists. A fault of the core is none of these: it is a next state whose run state is FAULTED
(60_exceptions.md R207; log entry 3). -/
inductive Fault where
  /-- Raised by `step` when the run state is HALTED: no step is defined (40_fetch_execute.md R100). Safe. -/
  | halted
  /-- Raised by `step` when the run state is FAULTED: no step is defined (40_fetch_execute.md R100). Safe. -/
  | faulted
  deriving DecidableEq, Repr

/-- Why an instruction has no meaning. -/
inductive Refusal where
  /-- Raised by an arm of `exec` whose instruction has no meaning yet. Safe. No arm of this model raises it. -/
  | notModelled (mnemonic : String)
  deriving DecidableEq, Repr

/-- The machine right after reset, that is, after construction from the empty image with `SP_RESET` at
`Config.spReset` (10_state.md R44, 70_reset_and_hazards.md R230). A program comes in with the image: log entry 7. -/
def State.reset : State where
  mem   := []
  x     := #v[0, 0, 0, 0, 0, 0, 0, Config.spReset]
  pc    := 0
  fl    := ⟨false, false, false⟩
  run   := .running
  fault := none
  out   := []

end Sys2Proof.Machine
end

