-- ==== Sys2Proof/Machine/Ops.lean ====
section
/-! DEFINITION. The named operations over memory, registers and the rest of the state: the primitives of the spec's
pseudocode (00_scope.md R18), fault entry (60_exceptions.md R207) and construction (70_reset_and_hazards.md R230). -/

namespace Sys2Proof.Machine

/-! ### The memory array -/

/-- What an unlisted address reads as: memory is zero-initialised (10_state.md R40, R44). -/
def Memory.unlisted : Byte := 0

/-- The canonical form: addresses strictly rising, all of them in 0 to 255, and no cell listed that reads as an
unlisted one does. -/
abbrev Memory.wf (m : Memory) : Prop :=
  m.Pairwise (fun c d => c.1 < d.1) ∧ ∀ c ∈ m, c.1 ≤ 255 ∧ c.2 ≠ Memory.unlisted

/-- The cell at an address. -/
def Memory.read : Memory → Nat → Byte
  | [], _ => Memory.unlisted
  | (b, w) :: m, a => if a = b then w else Memory.read m a

/-- Put a cell in front of a memory, unless it reads as an unlisted one does. -/
def Memory.cons (a : Nat) (v : Byte) (m : Memory) : Memory :=
  if v = Memory.unlisted then m else (a, v) :: m

/-- Set the cell at an address, keeping the canonical form. -/
def Memory.write : Memory → Nat → Byte → Memory
  | [], a, v => Memory.cons a v []
  | (b, w) :: m, a, v =>
    if a < b then Memory.cons a v ((b, w) :: m)
    else if a = b then Memory.cons a v m
    else (b, w) :: Memory.write m a v

/-- Set the cells from address `a` upward, one for each byte; a byte that would lie above address 255 is dropped. -/
def Memory.place : Memory → Nat → List Byte → Memory
  | m, _, [] => m
  | m, a, v :: vs => Memory.place (if a ≤ 255 then m.write a v else m) (a + 1) vs

/-! ### Faults (60_exceptions.md) -/

/-- The spec's own number of a cause (R200). -/
def FaultCause.code : FaultCause → Nat
  | .unrecognizedOpcode => 1
  | .outOfRange => 2
  | .unsupportedOperation => 3

/-- `raise UnrecognizedOpcode(opcode)` (R201). -/
def unrecognizedOpcode (op : Byte) : FaultEvent := ⟨.unrecognizedOpcode, .opcode op⟩

/-- `raise OutOfRange(kind, value)` (R202). -/
def outOfRange (kind : RangeKind) (value : Nat) : FaultEvent := ⟨.outOfRange, .range kind value⟩

/-- Fault entry: the run state becomes FAULTED and the record names the cause, the faulting step's `pc` and the info;
nothing else changes (R207, R108). There is no return from it (R208). -/
def State.raise (s : State) (e : FaultEvent) : State :=
  { s with run := .faulted, fault := some ⟨e.cause, s.pc, e.info⟩ }

/-! ### Registers, memory, program counter, flags, output -/

/-- `x[i]` (00_scope.md R8). -/
def State.reg (s : State) (i : RegIdx) : Byte := s.x.get i

/-- `x[i] <- v`. No register is hardwired (10_state.md R31). -/
def State.setReg (s : State) (i : RegIdx) (v : Byte) : State :=
  { s with x := s.x.set i.val v i.isLt }

/-- The number of the stack pointer (10_state.md R32). -/
def spIdx : RegIdx := 7

/-- `SP`, another name for `x[7]` (00_scope.md R18). -/
def State.sp (s : State) : Byte := s.reg spIdx

/-- `x[7] <- (x[7] + 255) mod 256`, the decrement before a push (20_memory.md R69). -/
def State.decSp (s : State) : State :=
  s.setReg spIdx (BitVec.ofNat 8 ((s.sp.toNat + 255) % 256))

/-- `x[7] <- (x[7] + 1) mod 256`, the increment after a pop (20_memory.md R69). -/
def State.incSp (s : State) : State :=
  s.setReg spIdx (BitVec.ofNat 8 ((s.sp.toNat + 1) % 256))

/-- `MemRead(a, 1)` (20_memory.md R61). -/
def State.memRead (s : State) (a : Nat) : Except FaultEvent Byte :=
  if a ≤ 255 then .ok (s.mem.read a) else .error (outOfRange .mem a)

/-- Replace the memory array. -/
def State.setMem (s : State) (m : Memory) : State := { s with mem := m }

/-- `MemWrite(a, 1, v)` (20_memory.md R62). -/
def State.memWrite (s : State) (a : Nat) (v : Byte) : Except FaultEvent State :=
  if a ≤ 255 then .ok (s.setMem (s.mem.write a v)) else .error (outOfRange .mem a)

/-- `pc <- target` (00_scope.md R18). -/
def State.setPc (s : State) (target : Nat) : State := { s with pc := target }

/-- `FL <- (e, l, g)`: the flag register is written only as a whole (00_scope.md R9). -/
def State.setFlags (s : State) (f : Flags) : State := { s with fl := f }

/-- `Emit(v)`: append a value to the output stream (10_state.md R41). -/
def State.emit (s : State) (v : Byte) : State := { s with out := s.out ++ [v] }

/-- `run <- HALTED` (44_control_flow.md R155). -/
def State.halt (s : State) : State := { s with run := .halted }

/-! ### The end of a step (40_fetch_execute.md R107, R108) -/

/-- The loop's advance after the handler of `o`: by the length where the sets-PC bit is clear, an exact sum without
wrap; nothing where it is set (R107). -/
def State.advance (s : State) (o : Opcode) : State :=
  if setsPC o.byte then s else s.setPc (s.pc + instrLen o.byte)

/-- The outcome of a step from `s` whose operand check and handler answered `r`: the handler's state after the loop's
advance, or fault entry from `s` itself, so that nothing the handler did shows (R107, R108). -/
def settle (o : Opcode) (s : State) (r : Except FaultEvent State) : Host.Outcome State Fault Refusal :=
  match r with
  | .ok t => .next (t.advance o)
  | .error e => .next (s.raise e)

/-! ### Construction (70_reset_and_hazards.md) -/

/-- An image the core accepts: at most 256 values, each 0 to 255 (R231). -/
abbrev ImageOk (image : List Nat) : Prop := image.length ≤ 256 ∧ ∀ v ∈ image, v ≤ 255

/-- The core constructed from an image, with `SP_RESET` at `spReset` (R230, R231; 10_state.md R44): the image lies
from address 0 upward and everything else is at its reset value. No core is constructed from an image that is not
acceptable (D17). -/
def construct (image : List Nat) (spReset : Byte) : Option State :=
  if ImageOk image then
    some ((State.reset.setReg spIdx spReset).setMem (Memory.place [] 0 (image.map (BitVec.ofNat 8))))
  else none

end Sys2Proof.Machine
end

