-- ==== Sys2Proof/Machine/Flags.lean ====
section
/-! DEFINITION. The ALU and the flag computation (42_arithmetic.md R130, 45_compare.md R171). -/

namespace Sys2Proof.Machine

/-- `ALU(ADD, a, b)`: the exact sum, brought back modulo 256 (R130). -/
def aluAdd (a b : Byte) : Byte := BitVec.ofNat 8 ((a.toNat + b.toNat) % 256)

/-- `ALU(MUL, a, b)`: the exact product, brought back modulo 256 (R130). -/
def aluMul (a b : Byte) : Byte := BitVec.ofNat 8 ((a.toNat * b.toNat) % 256)

/-- All three flags clear. -/
def Flags.clear : Flags := ⟨false, false, false⟩

/-- `Compare(A, B)`, which is also `ALU(CMP, A, B)`: clear all three flags, then set exactly one, comparing as unsigned
bytes (R171). -/
def compareFlags (a b : Byte) : Flags :=
  if a.toNat = b.toNat then { Flags.clear with e := true }
  else if a.toNat < b.toNat then { Flags.clear with l := true }
  else { Flags.clear with g := true }

end Sys2Proof.Machine
end

