-- ==== Sys2Proof/Machine/Operands.lean ====
section
/-! DEFINITION. The operand forms: the register operand and its check (30_encoding.md R86, R87; 40_fetch_execute.md
R105). The immediate operand is the byte itself and needs no operation. -/

namespace Sys2Proof.Machine

/-- The register a register operand byte names: the whole byte is the index, and a byte of 8 or more raises
OutOfRange(REG, byte); it is not masked (R87). -/
def regOperand (b : Byte) : Except FaultEvent RegIdx :=
  if h : b.toNat < 8 then .ok ⟨b.toNat, h⟩ else .error (outOfRange .reg b.toNat)

/-- Check a register operand, then go on with the register it names. Two of them, one inside the other, check in
operand order (R105). -/
def withReg (b : Byte) (k : RegIdx → Except FaultEvent State) : Except FaultEvent State :=
  match regOperand b with
  | .ok i => k i
  | .error e => .error e

end Sys2Proof.Machine
end

