-- ==== Sys2Proof/Machine/Arithmetic.lean ====
section
/-! DEFINITION. ADD and MUL (42_arithmetic.md). Both sources are read before the write, and no flag changes. -/

namespace Sys2Proof.Machine

/-- ADD (R131). -/
def execAdd (a b : Byte) (s : State) : Host.Outcome State Fault Refusal :=
  settle .add s (withReg a fun i => withReg b fun j => .ok (s.setReg i (aluAdd (s.reg i) (s.reg j))))

/-- MUL (R132). -/
def execMul (a b : Byte) (s : State) : Host.Outcome State Fault Refusal :=
  settle .mul s (withReg a fun i => withReg b fun j => .ok (s.setReg i (aluMul (s.reg i) (s.reg j))))

end Sys2Proof.Machine
end

