-- ==== Sys2Proof/Machine/Compare.lean ====
section
/-! DEFINITION. CMP (45_compare.md). -/

namespace Sys2Proof.Machine

/-- CMP (R170): the only instruction that writes the flags. -/
def execCmp (a b : Byte) (s : State) : Host.Outcome State Fault Refusal :=
  settle .cmp s (withReg a fun i => withReg b fun j => .ok (s.setFlags (compareFlags (s.reg i) (s.reg j))))

end Sys2Proof.Machine
end

