-- ==== Sys2Proof/Machine/ControlFlow.lean ====
section
/-! DEFINITION. CALL, RET, JMP, JEQ, JNE and HALT (44_control_flow.md). The first five write `pc` on every path. -/

namespace Sys2Proof.Machine

/-- CALL (R150): the return address is checked before any write, then pushed; the target register is read after the
push. -/
def execCall (r : Byte) (s : State) : Host.Outcome State Fault Refusal :=
  settle .call s (withReg r fun i =>
    if 255 < s.pc + 2 then .error (outOfRange .retAddr (s.pc + 2))
    else
      match s.decSp.memWrite s.decSp.sp.toNat (BitVec.ofNat 8 (s.pc + 2)) with
      | .ok t => .ok (t.setPc (t.reg i).toNat)
      | .error e => .error e)

/-- RET (R151): the target is read at the current stack pointer, then the stack pointer is incremented. -/
def execRet (s : State) : Host.Outcome State Fault Refusal :=
  settle .ret s
    (match s.memRead s.sp.toNat with
    | .ok v => .ok (s.setPc v.toNat).incSp
    | .error e => .error e)

/-- JMP (R152). -/
def execJmp (r : Byte) (s : State) : Host.Outcome State Fault Refusal :=
  settle .jmp s (withReg r fun i => .ok (s.setPc (s.reg i).toNat))

/-- JEQ (R153): the not-taken sum is exact. -/
def execJeq (r : Byte) (s : State) : Host.Outcome State Fault Refusal :=
  settle .jeq s (withReg r fun i => .ok (s.setPc (if s.fl.e then (s.reg i).toNat else s.pc + 2)))

/-- JNE (R154): the not-taken sum is exact. -/
def execJne (r : Byte) (s : State) : Host.Outcome State Fault Refusal :=
  settle .jne s (withReg r fun i => .ok (s.setPc (if s.fl.e then s.pc + 2 else (s.reg i).toNat)))

/-- HALT (R155), run by the loop itself: no advance, so `pc` stays at the HALT (40_fetch_execute.md R103, D22). -/
def execHalt (s : State) : Host.Outcome State Fault Refusal := .next s.halt

end Sys2Proof.Machine
end

