-- ==== Sys2Proof/Machine/DataMovement.lean ====
section
/-! DEFINITION. LDI and PRN, and the host's rendering of the output stream (41_data_movement.md). -/

namespace Sys2Proof.Machine

/-- LDI (R120). -/
def execLdi (r imm : Byte) (s : State) : Host.Outcome State Fault Refusal :=
  settle .ldi s (withReg r fun i => .ok (s.setReg i imm))

/-- PRN (R121). -/
def execPrn (r : Byte) (s : State) : Host.Outcome State Fault Refusal :=
  settle .prn s (withReg r fun i => .ok (s.emit (s.reg i)))

/-- The character of a decimal digit. -/
def digitChar (d : Nat) : Char := Char.ofNat (48 + d)

/-- A byte in base 10, without sign, leading zeros or padding (R122). -/
def decimalDigits (v : Byte) : List Nat :=
  if v.toNat < 10 then [v.toNat]
  else if v.toNat < 100 then [v.toNat / 10, v.toNat % 10]
  else [v.toNat / 100, v.toNat / 10 % 10, v.toNat % 10]

/-- The line of text the host renders an element of `out` as, less its terminator, which is the host's (R122, D16). -/
def renderLine (v : Byte) : String :=
  "decimal: " ++ String.ofList ((decimalDigits v).map digitChar)

/-- The lines of an output stream, in its order (R122). -/
def renderOut (out : List Byte) : List String := out.map renderLine

end Sys2Proof.Machine
end

