-- ==== Sys2Proof/Machine/Stack.lean ====
section
/-! DEFINITION. PUSH and POP (43_stack.md), in the order of the spec's pseudocode (D14). -/

namespace Sys2Proof.Machine

/-- PUSH (R140): the stack pointer is decremented first, and the register is read after that. -/
def execPush (r : Byte) (s : State) : Host.Outcome State Fault Refusal :=
  settle .push s (withReg r fun i => s.decSp.memWrite s.decSp.sp.toNat (s.decSp.reg i))

/-- POP (R141): the read is at the current stack pointer, and the increment reads it after the write to `x[r]`. -/
def execPop (r : Byte) (s : State) : Host.Outcome State Fault Refusal :=
  settle .pop s (withReg r fun i =>
    match s.memRead s.sp.toNat with
    | .ok v => .ok (s.setReg i v).incSp
    | .error e => .error e)

end Sys2Proof.Machine
end

