-- ==== Sys2Proof/Machine/Fetch.lean ====
section
/-! DEFINITION. The fetch unit (40_fetch_execute.md R101–R104) and the placing of an instruction where it fetches. -/

namespace Sys2Proof.Machine

/-- Read one instruction byte; an address above 255 raises OutOfRange(FETCH, address) (R102, R104). -/
def State.fetchByte (s : State) (a : Nat) : Except FaultEvent Byte :=
  if 255 < a then .error (outOfRange .fetch a) else s.memRead a

/-- `FetchOpcode(p)` (R102). -/
def State.fetchOpcode (s : State) (p : Nat) : Except FaultEvent Byte := s.fetchByte p

/-- `FetchOperands(p, len)`: the `len - 1` operand bytes, in ascending addresses (R104). An operand that the
instruction does not have is not read; the 0 in its place is never looked at. -/
def State.fetchOperands (s : State) (p len : Nat) : Except FaultEvent (Byte × Byte) :=
  if len < 2 then .ok (0, 0)
  else
    match s.fetchByte (p + 1) with
    | .error e => .error e
    | .ok opnd1 =>
      if len = 3 then
        match s.fetchByte (p + 2) with
        | .error e => .error e
        | .ok opnd2 => .ok (opnd1, opnd2)
      else .ok (opnd1, 0)

/-- The instruction at `pc`: the opcode, the test for HALT before any decoding, the decoder, the operand bytes
(R101, R103). -/
def State.fetchInstr (s : State) : Except FaultEvent Instr :=
  match s.fetchOpcode s.pc with
  | .error e => .error e
  | .ok op =>
    if op = 0x01#8 then .ok .halt
    else
      match decodeOpcode op with
      | none => .error (unrecognizedOpcode op)
      | some d =>
        match s.fetchOperands s.pc d.len with
        | .error e => .error e
        | .ok (opnd1, opnd2) => .ok (assemble d.name opnd1 opnd2)

/-- The state with some bytes lying from `pc` upward. -/
def State.placeAtPc (s : State) (bytes : List Byte) : State := s.setMem (s.mem.place s.pc bytes)

end Sys2Proof.Machine
end

