-- ==== Sys2Proof/Machine/Step.lean ====
section
/-! DEFINITION. One step of the core (40_fetch_execute.md R100, R101). -/

namespace Sys2Proof.Machine

/-- One step: fetch, decode and execute one instruction (R101). No step is defined from HALTED or FAULTED (R100);
there the answer is a stop of its own name (log entry 3). -/
def step (s : State) : Host.Outcome State Fault Refusal :=
  match s.run with
  | .halted => .fault .halted
  | .faulted => .fault .faulted
  | .running =>
    match s.fetchInstr with
    | .error e => .next (s.raise e)
    | .ok i => exec i s

/-- The state with a table row's word stored where `step` fetches its next instruction, nothing else changed
(log entries 7 and 8). -/
def State.withFetchWord (s : State) (nbits w : Nat) : State := s.placeAtPc (tableBytes nbits w)

end Sys2Proof.Machine
end

