-- ==== Sys2Proof/Machine/Assembly.lean ====
section
/-! DEFINITION. The assembly text of an instruction (30_encoding.md R90, D27). Text has no meaning of its own; the
loader's program text (R91) is outside the core (00_scope.md R5). -/

namespace Sys2Proof.Machine

/-- A register operand, `R<n>`. -/
def registerText (r : Byte) : String := "R" ++ Nat.repr r.toNat

/-- An instruction with one register operand, `OP Rr`. -/
def oneRegText (op : String) (r : Byte) : String := op ++ " " ++ registerText r

/-- An instruction with two register operands, `OP Ra, Rb`. -/
def twoRegText (op : String) (a b : Byte) : String := op ++ " " ++ registerText a ++ ", " ++ registerText b

/-- The text of an instruction, its operands in encoding order and an immediate in decimal (R90). -/
def assemblyText : Instr → String
  | .ldi r imm => oneRegText "LDI" r ++ ", " ++ Nat.repr imm.toNat
  | .prn r => oneRegText "PRN" r
  | .mul a b => twoRegText "MUL" a b
  | .push r => oneRegText "PUSH" r
  | .pop r => oneRegText "POP" r
  | .halt => "HALT"
  | .call r => oneRegText "CALL" r
  | .ret => "RET"
  | .add a b => twoRegText "ADD" a b
  | .jmp r => oneRegText "JMP" r
  | .jeq r => oneRegText "JEQ" r
  | .jne r => oneRegText "JNE" r
  | .cmp a b => twoRegText "CMP" a b

end Sys2Proof.Machine
end

