-- ==== Sys2Proof/Machine/Run.lean ====
section
/-! DEFINITION. A run, cut after a number of steps by the host (40_fetch_execute.md R111, 60_exceptions.md R217). -/

namespace Sys2Proof.Machine

/-- The state after at most `k` steps. The limit is the host's, not the core's (D23): the run goes on while the state
is RUNNING, and a terminal state stays as it is (R100). -/
def runFor : Nat → State → State
  | 0, s => s
  | k + 1, s =>
    match step s with
    | .next t => runFor k t
    | .fault _ => s
    | .refused _ => s

end Sys2Proof.Machine
end

