-- ==== Sys2Proof/WellFormed.lean ====
section
/-! DEFINITION. Which instructions name existing registers (30_encoding.md R86, R87; 40_fetch_execute.md R105). -/

namespace Sys2Proof

/-- The register operands of an instruction, in the order in which the execution loop checks them (R105).
LDI's second operand is an immediate and is not among them. -/
def Instr.regOperands : Instr → List Byte
  | .ldi r _ => [r]
  | .prn r => [r]
  | .mul a b => [a, b]
  | .push r => [r]
  | .pop r => [r]
  | .halt => []
  | .call r => [r]
  | .ret => []
  | .add a b => [a, b]
  | .jmp r => [r]
  | .jeq r => [r]
  | .jne r => [r]
  | .cmp a b => [a, b]

/-- Every register operand is one of 0 to 7. An instruction that is not well formed still has a meaning: it faults (R105). -/
abbrev Instr.WellFormed (i : Instr) : Prop := ∀ b ∈ i.regOperands, b.toNat < 8

/-- The first register operand that names no register: the one whose byte the fault records (R105). -/
def Instr.firstBad (i : Instr) : Option Byte := i.regOperands.find? fun b => decide (8 ≤ b.toNat)

end Sys2Proof
end

