-- ==== Sys2Proof/Safety.lean ====
section
/-! DEFINITION. What the claims speak of: the invariant of the machine, the states of a run, frames, and the bytes a
step reads. -/

namespace Sys2Proof.Machine

/-! ### The invariant -/

/-- The flag values a run can show: all clear, or exactly one set (10_state.md R42). -/
def Flags.reachable (f : Flags) : Bool :=
  f == Flags.clear || f == ⟨true, false, false⟩ || f == ⟨false, true, false⟩ || f == ⟨false, false, true⟩

/-- The cause, info and pc of a fault record belong together, and are what the spec lets a step record: the opcode is
none of the 13 (60_exceptions.md R201); OutOfRange has one of the kinds FETCH, REG and RETADDR with its value (R202);
UnsupportedOperation and the kind MEM do not occur (R203, R202). -/
def FaultRecord.ok (r : FaultRecord) : Bool :=
  match r.cause, r.info with
  | .unrecognizedOpcode, .opcode op => decide (r.pc ≤ 255) && (opcodeOf op).isNone
  | .outOfRange, .range .fetch v => decide (254 ≤ r.pc) && decide (v = 256)
  | .outOfRange, .range .reg v => decide (8 ≤ v) && decide (v ≤ 255)
  | .outOfRange, .range .retAddr v => decide (r.pc = 254) && decide (v = 256)
  | _, _ => false

/-- There is a fault record exactly in FAULTED, and it names the pc of the faulting step, at which the machine stands
(10_state.md R39; 60_exceptions.md R207). -/
def State.faultOk (s : State) : Bool :=
  match s.run, s.fault with
  | .faulted, some r => decide (r.pc = s.pc) && r.ok
  | .faulted, none => false
  | _, some _ => false
  | _, none => true

/-- The invariant: memory in its canonical form, `pc` in 0 to 256 (10_state.md R37), the flags one of the reachable
values (R42), and a fault record exactly where the spec has one (R39). -/
abbrev State.Inv (s : State) : Prop :=
  s.mem.wf ∧ s.pc ≤ 256 ∧ s.fl.reachable = true ∧ s.faultOk = true

/-- The states of the runs from an image and a value of `SP_RESET` (40_fetch_execute.md R111). -/
inductive Reachable (image : List Nat) (spReset : Byte) : State → Prop where
  | start (s : State) (h : construct image spReset = some s) : Reachable image spReset s
  | next (s t : State) (hs : Reachable image spReset s) (h : step s = .next t) : Reachable image spReset t

/-! ### Frames -/

/-- Every register outside `ds` is as before. -/
abbrev KeepsRegs (s t : State) (ds : List RegIdx) : Prop := ∀ j, j ∉ ds → t.reg j = s.reg j

/-- Every byte of memory at an address outside `as` is as before. -/
abbrev KeepsMem (s t : State) (as : List Nat) : Prop := ∀ a, a ∉ as → t.mem.read a = s.mem.read a

/-- The run state and the fault record are as before. -/
abbrev KeepsRun (s t : State) : Prop := t.run = s.run ∧ t.fault = s.fault

/-- All but `pc`, the registers in `ds` and the bytes at the addresses in `as` is as before. -/
abbrev KeepsAllBut (s t : State) (ds : List RegIdx) (as : List Nat) : Prop :=
  KeepsRegs s t ds ∧ KeepsMem s t as ∧ t.fl = s.fl ∧ t.out = s.out ∧ KeepsRun s t

/-! ### What a step reads -/

/-- The state with another output stream in its place. -/
def State.withOut (s : State) (o : List Byte) : State := { s with out := o }

/-- The operand byte that names a register. -/
def regByte (i : RegIdx) : Byte := BitVec.ofNat 8 i.val

/-- The bytes of memory from `p` up to address 255. -/
def State.bytesFrom (s : State) (p : Nat) : List Byte :=
  (List.range (256 - p)).map fun k => s.mem.read (p + k)

/-- The 13 defined opcodes, in hexadecimal (30_encoding.md R85). -/
def definedOpcodes : List Byte :=
  [0x82, 0x47, 0xA2, 0x45, 0x46, 0x01, 0x50, 0x11, 0xA0, 0x54, 0x55, 0x56, 0xA7]

/-- A running machine whose opcode fetch reads `op`. -/
abbrev Fetches (s : State) (op : Byte) : Prop :=
  s.run = .running ∧ s.pc ≤ 255 ∧ s.mem.read s.pc = op

/-- The opcode byte `op` decodes to the row `name` with the given length and sets-PC bit. -/
abbrev DecodesAs (op : Byte) (name : Opcode) (len : Nat) (setsPc : Bool) : Prop :=
  decodeOpcode op = some ⟨name, len, setsPc⟩

/-- The step from `s` is fault entry with `e`. -/
abbrev Raises (s : State) (e : FaultEvent) : Prop := step s = .next (s.raise e)

/-- Fetched at an address of `ps`, the opcode `op` faults because an operand byte lies past address 255: the first
such address is 256 for every instruction (40_fetch_execute.md R104). -/
abbrev FaultsPastEnd (op : Byte) (ps : List Nat) : Prop :=
  ∀ s : State, Fetches s op → s.pc ∈ ps → Raises s (outOfRange .fetch 256)

end Sys2Proof.Machine
end

