-- ==== Sys2Proof/Certificates/Slice0/Obligations.lean ====
section
/-! DEFINITION. The statements for the provers. Each docstring names the rule of spec/ it formalises. A statement on
a rule that rests on one of the spec's own decisions (92_eei_decisions.md) names the decision. The premise `s.mem.wf` is
the model's own canonical form of memory (log entry 6), which StepKeepsTheInvariant says every step keeps. -/

open Sys2Proof Sys2Proof.Machine

/-! ### One statement per instruction: encoding, effect, frame, and the operands and places on which it faults -/

/-- LDI, rule R120 of 41_data_movement.md whole. The REG clause rests on D9, the FETCH clause on D8. -/
def Obligations.LdiLoadsTheImmediate : Prop :=
  DecodesAs 0x82 .ldi 3 false ∧
  (∀ (r imm : Byte) (rest : List Byte), decode (0x82 :: r :: imm :: rest) = .ok (.ldi r imm, rest)) ∧
  (∀ (i : RegIdx) (imm : Byte) (s : State), ∃ t, exec (.ldi (regByte i) imm) s = .next t ∧
    t.reg i = imm ∧ t.pc = s.pc + 3 ∧ KeepsAllBut s t [i] []) ∧
  (∀ (r imm : Byte) (s : State), 8 ≤ r.toNat →
    exec (.ldi r imm) s = .next (s.raise (outOfRange .reg r.toNat))) ∧
  FaultsPastEnd 0x82 [254, 255]

/-- PRN, rule R121 of 41_data_movement.md whole. The REG clause rests on D9, the FETCH clause on D8. -/
def Obligations.PrnAppendsTheRegister : Prop :=
  DecodesAs 0x47 .prn 2 false ∧
  (∀ (r : Byte) (rest : List Byte), decode (0x47 :: r :: rest) = .ok (.prn r, rest)) ∧
  (∀ (i : RegIdx) (s : State), ∃ t, exec (.prn (regByte i)) s = .next t ∧
    t.out = s.out ++ [s.reg i] ∧ t.pc = s.pc + 2 ∧
    KeepsRegs s t [] ∧ KeepsMem s t [] ∧ t.fl = s.fl ∧ KeepsRun s t) ∧
  (∀ (r : Byte) (s : State), 8 ≤ r.toNat → exec (.prn r) s = .next (s.raise (outOfRange .reg r.toNat))) ∧
  FaultsPastEnd 0x47 [255]

/-- ADD, rule R131 of 42_arithmetic.md whole (the wrap is D2; the REG clauses rest on D9, the FETCH clause on D8). -/
def Obligations.AddWrapsModulo256 : Prop :=
  DecodesAs 0xA0 .add 3 false ∧
  (∀ (a b : Byte) (rest : List Byte), decode (0xA0 :: a :: b :: rest) = .ok (.add a b, rest)) ∧
  (∀ (i j : RegIdx) (s : State), ∃ t, exec (.add (regByte i) (regByte j)) s = .next t ∧
    (t.reg i).toNat = ((s.reg i).toNat + (s.reg j).toNat) % 256 ∧ t.pc = s.pc + 3 ∧ KeepsAllBut s t [i] []) ∧
  (∀ (a b : Byte) (s : State), 8 ≤ a.toNat → exec (.add a b) s = .next (s.raise (outOfRange .reg a.toNat))) ∧
  (∀ (i : RegIdx) (b : Byte) (s : State), 8 ≤ b.toNat →
    exec (.add (regByte i) b) s = .next (s.raise (outOfRange .reg b.toNat))) ∧
  FaultsPastEnd 0xA0 [254, 255]

/-- MUL, rule R132 of 42_arithmetic.md whole (the wrap is D2; the REG clauses rest on D9, the FETCH clause on D8). -/
def Obligations.MulKeepsTheLowByte : Prop :=
  DecodesAs 0xA2 .mul 3 false ∧
  (∀ (a b : Byte) (rest : List Byte), decode (0xA2 :: a :: b :: rest) = .ok (.mul a b, rest)) ∧
  (∀ (i j : RegIdx) (s : State), ∃ t, exec (.mul (regByte i) (regByte j)) s = .next t ∧
    (t.reg i).toNat = ((s.reg i).toNat * (s.reg j).toNat) % 256 ∧ t.pc = s.pc + 3 ∧ KeepsAllBut s t [i] []) ∧
  (∀ (a b : Byte) (s : State), 8 ≤ a.toNat → exec (.mul a b) s = .next (s.raise (outOfRange .reg a.toNat))) ∧
  (∀ (i : RegIdx) (b : Byte) (s : State), 8 ≤ b.toNat →
    exec (.mul (regByte i) b) s = .next (s.raise (outOfRange .reg b.toNat))) ∧
  FaultsPastEnd 0xA2 [254, 255]

/-- PUSH, rule R140 of 43_stack.md whole (D2, D3; the value `PUSH R7` stores is D14). The byte is stored at the
decremented stack pointer, and every other byte is as before. -/
def Obligations.PushDecrementsThenStores : Prop :=
  DecodesAs 0x45 .push 2 false ∧
  (∀ (r : Byte) (rest : List Byte), decode (0x45 :: r :: rest) = .ok (.push r, rest)) ∧
  (∀ (i : RegIdx) (s : State), ∃ t, exec (.push (regByte i)) s = .next t ∧
    t.sp.toNat = (s.sp.toNat + 255) % 256 ∧ s.decSp.sp = t.sp ∧
    (s.mem.wf → t.mem.read s.decSp.sp.toNat = if i = spIdx then s.decSp.sp else s.reg i) ∧
    t.pc = s.pc + 2 ∧ KeepsAllBut s t [spIdx] [s.decSp.sp.toNat]) ∧
  (∀ (r : Byte) (s : State), 8 ≤ r.toNat → exec (.push r) s = .next (s.raise (outOfRange .reg r.toNat))) ∧
  FaultsPastEnd 0x45 [255]

/-- POP, rule R141 of 43_stack.md whole (D2, D3; what `POP R7` leaves is D14). -/
def Obligations.PopLoadsThenIncrements : Prop :=
  DecodesAs 0x46 .pop 2 false ∧
  (∀ (r : Byte) (rest : List Byte), decode (0x46 :: r :: rest) = .ok (.pop r, rest)) ∧
  (∀ (i : RegIdx) (s : State), ∃ t, exec (.pop (regByte i)) s = .next t ∧
    (i ≠ spIdx → t.reg i = s.mem.read s.sp.toNat ∧ t.sp.toNat = (s.sp.toNat + 1) % 256) ∧
    (i = spIdx → t.sp.toNat = ((s.mem.read s.sp.toNat).toNat + 1) % 256) ∧
    t.pc = s.pc + 2 ∧ KeepsAllBut s t [i, spIdx] []) ∧
  (∀ (r : Byte) (s : State), 8 ≤ r.toNat → exec (.pop r) s = .next (s.raise (outOfRange .reg r.toNat))) ∧
  FaultsPastEnd 0x46 [255]

/-- CALL, rule R150 of 44_control_flow.md whole (D3; the RETADDR fault is D10, the target of `CALL R7` is D14). -/
def Obligations.CallPushesTheReturnAddress : Prop :=
  DecodesAs 0x50 .call 2 true ∧
  (∀ (r : Byte) (rest : List Byte), decode (0x50 :: r :: rest) = .ok (.call r, rest)) ∧
  (∀ (i : RegIdx) (s : State), s.pc + 2 ≤ 255 → ∃ t, exec (.call (regByte i)) s = .next t ∧
    t.sp.toNat = (s.sp.toNat + 255) % 256 ∧ s.decSp.sp = t.sp ∧
    (s.mem.wf → (t.mem.read s.decSp.sp.toNat).toNat = s.pc + 2) ∧
    t.pc = (if i = spIdx then s.decSp.sp else s.reg i).toNat ∧ KeepsAllBut s t [spIdx] [s.decSp.sp.toNat]) ∧
  (∀ (i : RegIdx) (s : State), 255 < s.pc + 2 →
    exec (.call (regByte i)) s = .next (s.raise (outOfRange .retAddr (s.pc + 2)))) ∧
  (∀ (r : Byte) (s : State), 8 ≤ r.toNat → exec (.call r) s = .next (s.raise (outOfRange .reg r.toNat))) ∧
  FaultsPastEnd 0x50 [255]

/-- RET, rule R151 of 44_control_flow.md whole (D2, D3): no fault, and legal at address 255. -/
def Obligations.RetPopsThePc : Prop :=
  DecodesAs 0x11 .ret 1 true ∧
  (∀ (rest : List Byte), decode (0x11 :: rest) = .ok (.ret, rest)) ∧
  (∀ (s : State), ∃ t, exec .ret s = .next t ∧
    t.pc = (s.mem.read s.sp.toNat).toNat ∧ t.sp.toNat = (s.sp.toNat + 1) % 256 ∧ KeepsAllBut s t [spIdx] []) ∧
  (∀ (s : State), Fetches s 0x11 → step s = exec .ret s)

/-- JMP, rule R152 of 44_control_flow.md whole. The REG clause rests on D9, the FETCH clause on D8. -/
def Obligations.JmpGoesToTheRegister : Prop :=
  DecodesAs 0x54 .jmp 2 true ∧
  (∀ (r : Byte) (rest : List Byte), decode (0x54 :: r :: rest) = .ok (.jmp r, rest)) ∧
  (∀ (i : RegIdx) (s : State), ∃ t, exec (.jmp (regByte i)) s = .next t ∧
    t.pc = (s.reg i).toNat ∧ KeepsAllBut s t [] []) ∧
  (∀ (r : Byte) (s : State), 8 ≤ r.toNat → exec (.jmp r) s = .next (s.raise (outOfRange .reg r.toNat))) ∧
  FaultsPastEnd 0x54 [255]

/-- JEQ, rule R153 of 44_control_flow.md whole (the exact not-taken sum is D7; the REG fault, taken or not, is D9):
it branches exactly on `FL.E`, whatever `FL.L` and `FL.G` are. -/
def Obligations.JeqBranchesOnEqual : Prop :=
  DecodesAs 0x55 .jeq 2 true ∧
  (∀ (r : Byte) (rest : List Byte), decode (0x55 :: r :: rest) = .ok (.jeq r, rest)) ∧
  (∀ (i : RegIdx) (s : State), ∃ t, exec (.jeq (regByte i)) s = .next t ∧
    (s.fl.e = true → t.pc = (s.reg i).toNat) ∧ (s.fl.e = false → t.pc = s.pc + 2) ∧ KeepsAllBut s t [] []) ∧
  (∀ (r : Byte) (s : State), 8 ≤ r.toNat → exec (.jeq r) s = .next (s.raise (outOfRange .reg r.toNat))) ∧
  FaultsPastEnd 0x55 [255]

/-- JNE, rule R154 of 44_control_flow.md whole (the exact not-taken sum is D7; the REG fault, taken or not, is D9):
it branches exactly on `FL.E`, whatever `FL.L` and `FL.G` are. -/
def Obligations.JneBranchesOnNotEqual : Prop :=
  DecodesAs 0x56 .jne 2 true ∧
  (∀ (r : Byte) (rest : List Byte), decode (0x56 :: r :: rest) = .ok (.jne r, rest)) ∧
  (∀ (i : RegIdx) (s : State), ∃ t, exec (.jne (regByte i)) s = .next t ∧
    (s.fl.e = false → t.pc = (s.reg i).toNat) ∧ (s.fl.e = true → t.pc = s.pc + 2) ∧ KeepsAllBut s t [] []) ∧
  (∀ (r : Byte) (s : State), 8 ≤ r.toNat → exec (.jne r) s = .next (s.raise (outOfRange .reg r.toNat))) ∧
  FaultsPastEnd 0x56 [255]

/-- HALT, rule R155 of 44_control_flow.md whole (that `pc` stays is D22): it is legal at every address up to 255, and
only an opcode fetch at 256 faults. -/
def Obligations.HaltStopsWhereItStands : Prop :=
  DecodesAs 0x01 .halt 1 false ∧
  (∀ (rest : List Byte), decode (0x01 :: rest) = .ok (.halt, rest)) ∧
  (∀ (s : State), ∃ t, exec .halt s = .next t ∧ t.run = .halted ∧
    t.pc = s.pc ∧ KeepsRegs s t [] ∧ KeepsMem s t [] ∧ t.fl = s.fl ∧ t.out = s.out ∧ t.fault = s.fault) ∧
  (∀ (s : State), Fetches s 0x01 → step s = exec .halt s) ∧
  (∀ (s t u : State), exec .halt s = .next t → step t ≠ .next u) ∧
  (∀ (s : State), s.run = .running → s.pc = 256 → step s = .next (s.raise (outOfRange .fetch 256)))

/-- CMP, rule R170 of 45_compare.md whole. The REG clauses rest on D9, the FETCH clause on D8. -/
def Obligations.CmpSetsTheFlags : Prop :=
  DecodesAs 0xA7 .cmp 3 false ∧
  (∀ (a b : Byte) (rest : List Byte), decode (0xA7 :: a :: b :: rest) = .ok (.cmp a b, rest)) ∧
  (∀ (i j : RegIdx) (s : State), ∃ t, exec (.cmp (regByte i) (regByte j)) s = .next t ∧
    (t.fl.e = true ↔ s.reg i = s.reg j) ∧ (t.fl.l = true ↔ (s.reg i).toNat < (s.reg j).toNat) ∧
    (t.fl.g = true ↔ (s.reg j).toNat < (s.reg i).toNat) ∧ t.pc = s.pc + 3 ∧
    KeepsRegs s t [] ∧ KeepsMem s t [] ∧ t.out = s.out ∧ KeepsRun s t) ∧
  (∀ (a b : Byte) (s : State), 8 ≤ a.toNat → exec (.cmp a b) s = .next (s.raise (outOfRange .reg a.toNat))) ∧
  (∀ (i : RegIdx) (b : Byte) (s : State), 8 ≤ b.toNat →
    exec (.cmp (regByte i) b) s = .next (s.raise (outOfRange .reg b.toNat))) ∧
  FaultsPastEnd 0xA7 [254, 255]

/-! ### Encoding -/

/-- Decoding the bytes of any instruction, with anything after them, gives the instruction and leaves what is after
them: no bit of an encoding is dropped (30_encoding.md sections 1 to 3). -/
def Obligations.DecodeInvertsEncode : Prop :=
  ∀ (i : Instr) (rest : List Byte), decode (encode i ++ rest) = .ok (i, rest)

/-- Every list of bytes that decodes begins with the bytes of what it decodes to, so each instruction has one
encoding (30_encoding.md sections 1 to 4). -/
def Obligations.EncodeInvertsDecode : Prop :=
  ∀ (bytes rest : List Byte) (i : Instr), decode bytes = .ok (i, rest) → bytes = encode i ++ rest

/-- Bytes written out from the opcode map, one instruction of each family: a sanity statement (30_encoding.md R85,
derived from its binary column). -/
def Obligations.WordsOfTheOpcodeMapDecode : Prop :=
  decode [0b10000010, 0b00000000, 0b00001000] = .ok (.ldi 0 8, []) ∧
  decode [0b10100010, 0b00000000, 0b00000001] = .ok (.mul 0 1, []) ∧
  decode [0b01000101, 0b00000011] = .ok (.push 3, []) ∧
  decode [0b01010000, 0b00000001] = .ok (.call 1, []) ∧
  decode [0b00010001] = .ok (.ret, []) ∧
  decode [0b00000001] = .ok (.halt, []) ∧
  decode [0b10100111, 0b00000001, 0b00000000] = .ok (.cmp 1 0, [])

/-- For every opcode the decoder knows, the length is one more than bits 7:6 and sets-PC is bit 4 (rules R82, R83),
the whole byte being matched (R84, D25); the 13 bytes of R85 are known and the 243 others are not (30_encoding.md). -/
def Obligations.DescriptorsComeFromTheOpcodeByte : Prop :=
  (∀ (op : Byte) (d : Descriptor), decodeOpcode op = some d →
    d.len = 1 + op.toNat / 64 ∧ (d.setsPC = true ↔ op.toNat / 16 % 2 = 1) ∧ d.name.byte = op) ∧
  (∀ (op : Byte), (decodeOpcode op).isSome = true ↔ op ∈ definedOpcodes) ∧
  ((List.range 256).filter fun n => (decodeOpcode (BitVec.ofNat 8 n)).isNone).length = 243

/-! ### The step -/

/-- When the bytes from the program counter decode to an instruction, a running machine's step is the execution of
that instruction; everything else a step does (the advance past the instruction included) is inside `exec`
(40_fetch_execute.md section 2). -/
def Obligations.StepRunsTheDecodedInstruction : Prop :=
  ∀ (s : State) (i : Instr) (rest : List Byte),
    s.run = .running → decode (s.bytesFrom s.pc) = .ok (i, rest) → step s = exec i s

/-- When the bytes from the program counter decode to no instruction, a running machine's step is fault entry: FETCH
past address 255 (D7, D8), or UnrecognizedOpcode (40_fetch_execute.md sections 3 and 4). -/
def Obligations.StepFaultsWhereNothingDecodes : Prop :=
  ∀ (s : State), s.run = .running →
    (decode (s.bytesFrom s.pc) = .error .noBytes → step s = .next (s.raise (outOfRange .fetch s.pc))) ∧
    (∀ op, decode (s.bytesFrom s.pc) = .error (.unrecognizedOpcode op) →
      step s = .next (s.raise (unrecognizedOpcode op))) ∧
    (∀ k, decode (s.bytesFrom s.pc) = .error (.missingOperand k) →
      s.pc + k = 256 ∧ step s = .next (s.raise (outOfRange .fetch 256)))

/-- An opcode that is none of the 13 raises UnrecognizedOpcode with the byte and the pc (60_exceptions.md R201). -/
def Obligations.UndefinedOpcodesAreUnrecognized : Prop :=
  (∀ (s : State) (op : Byte), Fetches s op → op ∉ definedOpcodes →
    step s = .next (s.raise (unrecognizedOpcode op)) ∧
    (s.raise (unrecognizedOpcode op)).fault = some ⟨.unrecognizedOpcode, s.pc, .opcode op⟩) ∧
  FaultCause.unrecognizedOpcode.code = 1 ∧
  ((List.range 256).filter fun n => BitVec.ofNat 8 n ∉ definedOpcodes).length = 243

/-- The order in which one step's conditions are met (60_exceptions.md section 3; the order is the spec's decision
D13): opcode fetch, HALT, UnrecognizedOpcode, the operand fetches, the register operands, CALL's return address; and
where none of them is met, no fault is taken. -/
def Obligations.FaultsAreReportedInCheckOrder : Prop :=
  ∀ (s : State) (op o1 o2 : Byte), s.run = .running →
    s.mem.read s.pc = op → s.mem.read (s.pc + 1) = o1 → s.mem.read (s.pc + 2) = o2 →
    if 255 < s.pc then Raises s (outOfRange .fetch s.pc)
    else if op = 0x01#8 then ∃ t, step s = .next t ∧ t.run = .halted
    else if op ∉ definedOpcodes then Raises s (unrecognizedOpcode op)
    else if 1 ≤ operandCount op ∧ 255 < s.pc + 1 then Raises s (outOfRange .fetch (s.pc + 1))
    else if operandCount op = 2 ∧ 255 < s.pc + 2 then Raises s (outOfRange .fetch (s.pc + 2))
    else if 1 ≤ operandCount op ∧ 8 ≤ o1.toNat then Raises s (outOfRange .reg o1.toNat)
    else if operandCount op = 2 ∧ op ≠ 0x82#8 ∧ 8 ≤ o2.toNat then Raises s (outOfRange .reg o2.toNat)
    else if op = 0x50#8 ∧ 255 < s.pc + 2 then Raises s (outOfRange .retAddr (s.pc + 2))
    else ∃ t, step s = .next t ∧ t.run = .running

/-- The register operands that are checked, and the fault of the first bad one (40_fetch_execute.md R105, D9): LDI's
immediate is not checked, RET has no register operand, and a branch is checked whether or not it is taken. -/
def Obligations.RegisterOperandsAreCheckedInOrder : Prop :=
  (∀ (r imm : Byte) (s : State),
    (8 ≤ r.toNat → exec (.ldi r imm) s = .next (s.raise (outOfRange .reg r.toNat))) ∧
    (r.toNat < 8 → ∃ t, exec (.ldi r imm) s = .next t ∧ KeepsRun s t)) ∧
  (∀ (r : Byte) (s : State) (i : Instr),
    i ∈ [Instr.prn r, .push r, .pop r, .call r, .jmp r, .jeq r, .jne r] → 8 ≤ r.toNat →
    exec i s = .next (s.raise (outOfRange .reg r.toNat))) ∧
  (∀ (a b : Byte) (s : State) (i : Instr), i ∈ [Instr.add a b, .mul a b, .cmp a b] →
    (8 ≤ a.toNat → exec i s = .next (s.raise (outOfRange .reg a.toNat))) ∧
    (a.toNat < 8 → 8 ≤ b.toNat → exec i s = .next (s.raise (outOfRange .reg b.toNat)))) ∧
  (∀ (s : State), ∃ t, exec .ret s = .next t ∧ KeepsRun s t)

/-- Every well-formed instruction executes without a fault, CALL where its return address fits a byte: the whole
instruction set can run (30_encoding.md sections 2 and 3; 44_control_flow.md; 60_exceptions.md section 5). -/
def Obligations.WellFormedInstructionsExecute : Prop :=
  ∀ (i : Instr) (s : State), i.WellFormed → (∀ r, i = .call r → s.pc + 2 ≤ 255) →
    ∃ t, exec i s = .next t ∧ t.fault = s.fault ∧ t.run = if i = .halt then .halted else s.run

/-- A step exists exactly while the machine is running, and no step is refused (40_fetch_execute.md R100, D21). -/
def Obligations.StepExistsExactlyWhileRunning : Prop :=
  ∀ (s : State), ((∃ t, step s = .next t) ↔ s.run = .running) ∧ ∀ r, step s ≠ .refused r

/-- Fault entry writes the run state and the record and nothing else, and the record names the faulting
instruction's address (60_exceptions.md R207, 40_fetch_execute.md R108; D11). -/
def Obligations.FaultsArePrecise : Prop :=
  (∀ (s : State) (e : FaultEvent), (s.raise e).run = .faulted ∧ (s.raise e).fault = some ⟨e.cause, s.pc, e.info⟩) ∧
  (∀ (s t : State), step s = .next t → t.run = .faulted →
    t.mem = s.mem ∧ t.x = s.x ∧ t.fl = s.fl ∧ t.out = s.out ∧ t.pc = s.pc ∧
    ∃ e : FaultEvent, t.fault = some ⟨e.cause, s.pc, e.info⟩)

/-- The run state starts RUNNING, becomes HALTED only by HALT and FAULTED only by a fault, and both are terminal
(10_state.md R38, D11). -/
def Obligations.RunStateEndsOnlyByHaltOrFault : Prop :=
  (∀ (image : List Nat) (spReset : Byte) (s : State), construct image spReset = some s → s.run = .running) ∧
  (∀ (s t : State), step s = .next t → s.run = .running ∧
    (t.run = .running ∨ (t.run = .halted ∧ s.pc ≤ 255 ∧ s.mem.read s.pc = 0x01) ∨
      (t.run = .faulted ∧ ∃ e, t = s.raise e)))

/-- UnsupportedOperation is never produced (60_exceptions.md section 1, D19), nor is the kind MEM of OutOfRange, which
the spec infers that nothing raises (60_exceptions.md section 1, the table of causes; 20_memory.md section 1, derived
there). -/
def Obligations.ReservedCausesAreNeverRecorded : Prop :=
  ∀ (s t : State), step s = .next t →
    t.fault = s.fault ∨
      ∃ r, t.fault = some r ∧ r.cause ≠ .unsupportedOperation ∧ ∀ v, r.info ≠ .range .mem v

/-! ### Whole-machine rules -/

/-- Only CMP changes the flags, and it leaves exactly one set (10_state.md section 4). -/
def Obligations.FlagsAreWrittenOnlyByCmp : Prop :=
  ∀ (s t : State), step s = .next t → t.fl ≠ s.fl →
    s.pc ≤ 255 ∧ s.mem.read s.pc = 0xA7 ∧
    t.fl ∈ [Flags.mk true false false, Flags.mk false true false, Flags.mk false false true]

/-- The flags are read only by JEQ and JNE, and those read only `FL.E`: put any other flags in their place, with the
same `FL.E` if the opcode is one of the two, and the step does the same, the new flags staying unless CMP writes them
(10_state.md section 4). -/
def Obligations.FlagsAreReadOnlyByBranches : Prop :=
  ∀ (s t : State) (f : Flags), step s = .next t →
    (s.mem.read s.pc ∉ [0x55, 0x56] ∨ f.e = s.fl.e) →
    ∃ g, step (s.setFlags f) = .next (t.setFlags g) ∧
      (s.mem.read s.pc ≠ 0xA7 → g = f) ∧ (g = f ∨ g = t.fl)

/-- After construction only PUSH and CALL write memory, and each writes only the cell at the decremented stack
pointer (20_memory.md R63). -/
def Obligations.OnlyPushAndCallWriteMemory : Prop :=
  ∀ (s t : State), step s = .next t →
    (∀ a, t.mem.read a ≠ s.mem.read a → s.mem.read s.pc ∈ [0x45, 0x50] ∧ a = s.decSp.sp.toNat) ∧
    (s.mem.read s.pc ∉ [0x45, 0x50] → t.mem = s.mem)

/-- The output stream is empty at construction, each PRN appends one value, and nothing removes or changes an element
(10_state.md R41). -/
def Obligations.OutputGrowsOnlyByPrn : Prop :=
  (∀ (image : List Nat) (spReset : Byte) (s : State), construct image spReset = some s → s.out = []) ∧
  (∀ (i : RegIdx) (s : State), ∃ t, exec (.prn (regByte i)) s = .next t ∧ t.out = s.out ++ [s.reg i]) ∧
  (∀ (s t : State), step s = .next t →
    t.out = s.out ∨
      (s.mem.read s.pc = 0x47 ∧ ∃ i : RegIdx, s.mem.read (s.pc + 1) = regByte i ∧ t.out = s.out ++ [s.reg i]))

/-- No instruction reads the output stream: with any other stream in its place the step does the same and appends the
same (10_state.md section 8; 00_scope.md section 5). -/
def Obligations.OutputIsNeverRead : Prop :=
  ∀ (s t : State), step s = .next t →
    ∃ vs : List Byte, t.out = s.out ++ vs ∧
      ∀ o : List Byte, step (s.withOut o) = .next (t.withOut (o ++ vs))

/-- Which registers a step writes: LDI, ADD, MUL and POP their first operand; PUSH, POP, CALL and RET the stack
pointer (the table of 10_state.md section 2, which the spec derives from the instruction rules). -/
def Obligations.RegistersAreWrittenAsTabled : Prop :=
  ∀ (s t : State) (j : RegIdx), step s = .next t → t.reg j ≠ s.reg j →
    (s.mem.read s.pc ∈ [0x82, 0xA0, 0xA2, 0x46] ∧ s.mem.read (s.pc + 1) = regByte j) ∨
    (s.mem.read s.pc ∈ [0x45, 0x46, 0x50, 0x11] ∧ j = spIdx)

/-- `pc` stays in 0 to 256, and 256 arises only by a sequential advance or a branch not taken, past the last cell
(10_state.md section 3; the range is the spec's decision D7). -/
def Obligations.PcReaches256OnlySequentially : Prop :=
  ∀ (s t : State), s.pc ≤ 256 → step s = .next t →
    t.pc ≤ 256 ∧
    (t.pc = 256 → s.pc = 256 ∨
      ∃ d, decodeOpcode (s.mem.read s.pc) = some d ∧ s.pc + d.len = 256 ∧
        (d.setsPC = false ∨ d.name = .jeq ∨ d.name = .jne))

/-! ### The stack -/

/-- A PUSH and then a POP of the same register restore it and the stack pointer, R7 included; the only other change
is the cell that holds the pushed value (43_stack.md R142, which the spec derives from R140 and R141; D14). -/
def Obligations.PushThenPopRestores : Prop :=
  ∀ (i : RegIdx) (s : State), s.mem.wf →
    ∃ t u, exec (.push (regByte i)) s = .next t ∧ exec (.pop (regByte i)) t = .next u ∧
      u.x = s.x ∧ u.pc = s.pc + 4 ∧
      u.mem.read (s.sp - 1).toNat = (if i = spIdx then s.sp - 1 else s.reg i) ∧
      KeepsAllBut s u [] [(s.sp - 1).toNat]

/-- A CALL and later a RET that finds the stack pointer and its cell as the CALL left them go on after the CALL, with
the stack pointer as before the CALL (44_control_flow.md R156, which the spec derives from R150 and R151). -/
def Obligations.CallThenRetResumesAfterTheCall : Prop :=
  ∀ (i : RegIdx) (s : State), s.mem.wf → s.pc + 2 ≤ 255 →
    ∃ t, exec (.call (regByte i)) s = .next t ∧ t.pc = (t.reg i).toNat ∧
      ∀ v : State, v.sp = t.sp → v.mem.read t.sp.toNat = t.mem.read t.sp.toNat →
        ∃ u, exec .ret v = .next u ∧ u.pc = s.pc + 2 ∧ u.sp = s.sp

/-! ### Memory -/

/-- `MemRead` and `MemWrite`: inside 0 to 255 a write is read back and leaves every other cell alone; outside they
raise OutOfRange(MEM) (20_memory.md section 1; the fault is the spec's decision D8). That a write keeps the canonical
form of memory is the model's own clause: the list form is its choice (log entry 6). -/
def Obligations.MemoryReadsBackWhatWasWritten : Prop :=
  ∀ (s : State) (a : Nat) (v : Byte),
    (a ≤ 255 → s.mem.wf → ∃ t, s.memWrite a v = .ok t ∧ t.mem.wf ∧ t.memRead a = .ok v ∧
      (∀ b, b ≠ a → t.memRead b = s.memRead b)) ∧
    (255 < a → s.memWrite a v = .error (outOfRange .mem a) ∧ s.memRead a = .error (outOfRange .mem a))

/-- Two memories in canonical form whose 256 cells read alike are the same data: the model's own form of the memory
array of 20_memory.md section 1 (log entry 6). -/
def Obligations.EqualCellsAreEqualMemories : Prop :=
  ∀ (m m' : Memory), m.wf → m'.wf → (∀ a, a ≤ 255 → m.read a = m'.read a) → m = m'

/-- The next opcode fetch of a cell that PUSH or CALL has written reads what was written, with no delay (20_memory.md
section 4; D18). -/
def Obligations.NextFetchSeesTheStackWrite : Prop :=
  ∀ (i : RegIdx) (s : State), s.mem.wf →
    (∃ t, exec (.push (regByte i)) s = .next t ∧ t.fetchOpcode t.sp.toNat = .ok (t.reg i)) ∧
    (s.pc + 2 ≤ 255 → ∃ t, exec (.call (regByte i)) s = .next t ∧
      t.fetchOpcode t.sp.toNat = .ok (BitVec.ofNat 8 (s.pc + 2)))

/-! ### The ALU, the comparison and the output lines -/

/-- The ALU's three operations on unsigned bytes, and the three opcodes with bit 5 set, which use it
(42_arithmetic.md R130, D2). -/
def Obligations.AluOperationsAreExactModulo256 : Prop :=
  (∀ (a b : Byte),
    (aluAdd a b).toNat = (a.toNat + b.toNat) % 256 ∧ (aluMul a b).toNat = (a.toNat * b.toNat) % 256 ∧
    compareFlags a b = ⟨decide (a.toNat = b.toNat), decide (a.toNat < b.toNat), decide (b.toNat < a.toNat)⟩) ∧
  (∀ (o : Opcode), aluMarker o.byte = true ↔ o = .add ∨ o = .mul ∨ o = .cmp)

/-- A comparison sets exactly one flag, by the unsigned order (45_compare.md R171). -/
def Obligations.CompareSetsExactlyOneFlag : Prop :=
  ∀ (a b : Byte),
    (a.toNat = b.toNat → compareFlags a b = ⟨true, false, false⟩) ∧
    (a.toNat < b.toNat → compareFlags a b = ⟨false, true, false⟩) ∧
    (b.toNat < a.toNat → compareFlags a b = ⟨false, false, true⟩)

/-- Each output value is one line, `decimal: ` and the value in base 10 without leading zeros, in the order of the
stream; the terminator is the host's (41_data_movement.md R122, D16). -/
def Obligations.OutputLinesAreDecimal : Prop :=
  (∀ (v : Byte), ∃ ds : List Nat,
    renderLine v = "decimal: " ++ String.ofList (ds.map digitChar) ∧
    ds.foldl (fun n d => 10 * n + d) 0 = v.toNat ∧ (∀ d ∈ ds, d ≤ 9) ∧ ds ≠ [] ∧
    (ds.head? = some 0 → ds = [0])) ∧
  (List.range 10).map digitChar = ['0', '1', '2', '3', '4', '5', '6', '7', '8', '9'] ∧
  (∀ (out out' : List Byte), renderOut (out ++ out') = renderOut out ++ renderOut out') ∧
  (∀ (v : Byte), renderOut [v] = [renderLine v])

/-! ### Runs and construction -/

/-- A terminal state is never left; a run cut short goes on from where it was cut; from a RUNNING state a step exists
and the run is that step followed by the run from the state it answers; and a run stays among the reachable states
(40_fetch_execute.md sections 1 and 6; D21, D23). -/
def Obligations.RunsStopOnlyInTerminalStates : Prop :=
  (∀ (k : Nat) (s : State), s.run ≠ .running → runFor k s = s) ∧
  (∀ (j k : Nat) (s : State), runFor (j + k) s = runFor k (runFor j s)) ∧
  (∀ (s : State), s.run = .running →
    ∃ t, step s = .next t ∧ runFor 1 s = t ∧ ∀ k, runFor (k + 1) s = runFor k t) ∧
  (∀ (image : List Nat) (spReset : Byte) (k : Nat) (s : State),
    Reachable image spReset s → Reachable image spReset (runFor k s))

/-- Construction from an image the core accepts, for every value of `SP_RESET` (10_state.md R44,
70_reset_and_hazards.md R230; D4, D5, D6), and the refusal of every other image (R231, D17). That no core is
constructed is `construct` answering none, the model's form of it (log entry 12). What the spec infers of the empty
image's first step is EmptyImageFaultsAtOnce. -/
def Obligations.ConstructionLaysOutTheImage : Prop :=
  (∀ (image : List Nat) (spReset : Byte), image.length ≤ 256 → (∀ v ∈ image, v ≤ 255) →
    ∃ s, construct image spReset = some s ∧
      (∀ k v, image[k]? = some v → (s.mem.read k).toNat = v) ∧
      (∀ a, image.length ≤ a → a ≤ 255 → s.mem.read a = 0) ∧
      (∀ i : RegIdx, i ≠ spIdx → s.reg i = 0) ∧ s.sp = spReset ∧ s.pc = 0 ∧ s.fl = ⟨false, false, false⟩ ∧
      s.run = .running ∧ s.fault = none ∧ s.out = []) ∧
  (∀ (image : List Nat) (spReset : Byte), (256 < image.length ∨ ∃ v ∈ image, 255 < v) →
    construct image spReset = none)

/-- The empty image is accepted; its first step faults UnrecognizedOpcode on the byte 0x00 at address 0, for every
value of `SP_RESET` (70_reset_and_hazards.md section 1, derived there). `State.reset` is this machine at the value
the model chose for `SP_RESET` (log entry 1). -/
def Obligations.EmptyImageFaultsAtOnce : Prop :=
  (∀ (spReset : Byte), ∃ s, construct [] spReset = some s ∧ step s = .next (s.raise (unrecognizedOpcode 0))) ∧
  construct [] Config.spReset = some State.reset

/-- After `LDI R7, v` nothing is left of the stack pointer's value before, so nothing of `SP_RESET`
(70_reset_and_hazards.md section 2, item 2; 41_data_movement.md). -/
def Obligations.LdiOfTheStackPointerForgetsItsValue : Prop :=
  ∀ (s : State) (v w : Byte),
    ∃ t, exec (.ldi (regByte spIdx) v) s = .next t ∧ t.sp = v ∧
      exec (.ldi (regByte spIdx) v) (s.setReg spIdx w) = .next t

/-- The model's placing of a table row's word: the next step of a running machine executes the instruction that the
decoder reads from the word (the model's own stand-in for the load of 70_reset_and_hazards.md section 1: log entries
7 and 8). -/
def Obligations.PlacedWordIsExecutedNext : Prop :=
  ∀ (s : State) (nbits w : Nat) (i : Instr), s.mem.wf → s.run = .running → s.pc ≤ 253 →
    decodeTableWord nbits w = some i → step (s.withFetchWord nbits w) = exec i (s.withFetchWord nbits w)

/-! ### The invariant -/

/-- Every step keeps the invariant: memory in its canonical form (the model's own form, log entry 6), `pc` in 0 to 256, the flags a reachable value, and
a fault record exactly in FAULTED, naming a cause, an info and a pc that belong together (10_state.md sections 1 and
3 to 6; 60_exceptions.md section 1). -/
def Obligations.StepKeepsTheInvariant : Prop :=
  ∀ (s t : State), s.Inv → step s = .next t → t.Inv

/-- Every constructed machine meets the invariant, `State.reset` among them (10_state.md section 9; the canonical form
of memory in it is the model's own, log entry 6). -/
def Obligations.ConstructedMachinesMeetTheInvariant : Prop :=
  (∀ (image : List Nat) (spReset : Byte) (s : State), construct image spReset = some s → s.Inv) ∧ State.reset.Inv

/-- Every state of every run, from any image and any `SP_RESET`, meets the invariant; in particular its flags are
`(0,0,0)`, `(1,0,0)`, `(0,1,0)` or `(0,0,1)`, and its fault record is absent unless it is FAULTED (10_state.md
sections 4 and 5, derived there; the canonical form of memory in the invariant is the model's own, log entry 6). -/
def Obligations.ReachableStatesMeetTheInvariant : Prop :=
  ∀ (image : List Nat) (spReset : Byte) (s : State), Reachable image spReset s →
    s.Inv ∧
    s.fl ∈ [Flags.mk false false false, Flags.mk true false false, Flags.mk false true false,
      Flags.mk false false true] ∧
    (s.run ≠ .faulted → s.fault = none)
end

