-- ==== Sys2Proof/Laws/Decode.lean ====
section
/-! SUPPORT. The opcode map and the operand bytes: what the decoder's parts answer. -/

namespace Sys2Proof

/-- The byte of an opcode is found in the map. -/
@[simp] theorem opcodeOf_byte (o : Opcode) : opcodeOf o.byte = some o := by
  cases o <;> decide

/-- A byte found in the map is the byte of what was found. -/
theorem byte_of_opcodeOf {op : Byte} {o : Opcode} (h : opcodeOf op = some o) : o.byte = op := by
  have := List.find?_some h
  simpa using this

theorem opcodeOf_eq_some {op : Byte} {o : Opcode} : opcodeOf op = some o ↔ op = o.byte :=
  ⟨fun h => (byte_of_opcodeOf h).symm, fun h => h ▸ opcodeOf_byte o⟩

theorem Opcode.byte_injective {o o' : Opcode} (h : o.byte = o'.byte) : o = o' := by
  have := opcodeOf_byte o
  rw [h, opcodeOf_byte] at this
  exact (Option.some.inj this).symm

@[simp] theorem decodeOpcode_byte (o : Opcode) :
    decodeOpcode o.byte = some ⟨o, instrLen o.byte, setsPC o.byte⟩ := by
  rw [decodeOpcode, opcodeOf_byte]; rfl

/-- What the decoder answers for a byte, if it answers. -/
theorem decodeOpcode_eq_some {op : Byte} {d : Descriptor} :
    decodeOpcode op = some d ↔ op = d.name.byte ∧ d = ⟨d.name, instrLen op, setsPC op⟩ := by
  constructor
  · intro h
    obtain ⟨o, ho, rfl⟩ := Option.map_eq_some_iff.1 h
    exact ⟨opcodeOf_eq_some.1 ho, rfl⟩
  · rintro ⟨h, hd⟩
    rw [hd, h, decodeOpcode_byte]

theorem decodeOpcode_eq_none {op : Byte} : decodeOpcode op = none ↔ opcodeOf op = none := by
  simp [decodeOpcode]

/-- The opcodes outside the map are the bytes not listed (30_encoding.md R88). -/
theorem opcodeOf_eq_none {op : Byte} : opcodeOf op = none ↔ op ∉ Machine.definedOpcodes := by
  revert op; decide

/-- The operand count of each defined opcode, from its byte (30_encoding.md R84). -/
theorem operandCount_byte (o : Opcode) :
    operandCount o.byte =
      match o with
      | .halt | .ret => 0
      | .ldi | .mul | .add | .cmp => 2
      | .prn | .push | .pop | .call | .jmp | .jeq | .jne => 1 := by
  cases o <;> decide

/-- The sets-PC bit of each defined opcode, from its byte (30_encoding.md R84). -/
theorem setsPC_byte (o : Opcode) :
    setsPC o.byte =
      match o with
      | .call | .ret | .jmp | .jeq | .jne => true
      | .ldi | .prn | .mul | .push | .pop | .halt | .add | .cmp => false := by
  cases o <;> decide

/-- The number of operand bytes of each opcode is the number `operands` gives. -/
theorem operandCount_opcode (i : Instr) : operandCount i.opcode.byte = i.operands.length := by
  cases i <;> simp [operandCount_byte, Instr.opcode, Instr.operands]

@[simp] theorem assemble_opcode (o : Opcode) (b c : Byte) : (assemble o b c).opcode = o := by
  cases o <;> rfl

/-- The operands of an assembled instruction are the first bytes given, as many as its opcode has. -/
theorem assemble_operands (o : Opcode) (b c : Byte) :
    (assemble o b c).operands = [b, c].take (operandCount o.byte) := by
  cases o <;> simp [operandCount_byte, assemble, Instr.operands]

theorem Instr.firstBad_eq_none {i : Instr} : i.firstBad = none ↔ i.WellFormed := by
  simp [Instr.firstBad, Instr.WellFormed]

/-- What `operandBytes` answers, if it answers: the operand bytes are the first ones of the list. -/
theorem operandBytes_ok {n : Nat} {bs : List Byte} {b c : Byte} {rest : List Byte}
    (h : operandBytes n bs = .ok (b, c, rest)) : bs = [b, c].take n ++ rest := by
  match n, bs with
  | 0, bs => simp [operandBytes] at h; simp [h]
  | 1, b' :: bs => simp [operandBytes] at h; simp [h]
  | n + 2, b' :: c' :: bs => simp [operandBytes] at h; simp [h]
  | n + 2, [b'] => simp [operandBytes] at h
  | 1, [] => simp [operandBytes] at h
  | n + 2, [] => simp [operandBytes] at h

end Sys2Proof
end

