-- ==== Sys2Proof/Laws/State.lean ====
section
/-! SUPPORT. One lemma per field per update of the state, and what the register accessors read after each update. -/

namespace Sys2Proof.Machine

/-! ### `State.setReg` -/

@[simp] theorem State.setReg_mem (s : State) (i : RegIdx) (v : Byte) : (s.setReg i v).mem = s.mem := rfl
@[simp] theorem State.setReg_x (s : State) (i : RegIdx) (v : Byte) : (s.setReg i v).x = s.x.set i.val v i.isLt := rfl
@[simp] theorem State.setReg_pc (s : State) (i : RegIdx) (v : Byte) : (s.setReg i v).pc = s.pc := rfl
@[simp] theorem State.setReg_fl (s : State) (i : RegIdx) (v : Byte) : (s.setReg i v).fl = s.fl := rfl
@[simp] theorem State.setReg_run (s : State) (i : RegIdx) (v : Byte) : (s.setReg i v).run = s.run := rfl
@[simp] theorem State.setReg_fault (s : State) (i : RegIdx) (v : Byte) : (s.setReg i v).fault = s.fault := rfl
@[simp] theorem State.setReg_out (s : State) (i : RegIdx) (v : Byte) : (s.setReg i v).out = s.out := rfl

/-! ### `State.setMem` -/

@[simp] theorem State.setMem_mem (s : State) (m : Memory) : (s.setMem m).mem = m := rfl
@[simp] theorem State.setMem_x (s : State) (m : Memory) : (s.setMem m).x = s.x := rfl
@[simp] theorem State.setMem_pc (s : State) (m : Memory) : (s.setMem m).pc = s.pc := rfl
@[simp] theorem State.setMem_fl (s : State) (m : Memory) : (s.setMem m).fl = s.fl := rfl
@[simp] theorem State.setMem_run (s : State) (m : Memory) : (s.setMem m).run = s.run := rfl
@[simp] theorem State.setMem_fault (s : State) (m : Memory) : (s.setMem m).fault = s.fault := rfl
@[simp] theorem State.setMem_out (s : State) (m : Memory) : (s.setMem m).out = s.out := rfl

/-! ### `State.setPc` -/

@[simp] theorem State.setPc_mem (s : State) (p : Nat) : (s.setPc p).mem = s.mem := rfl
@[simp] theorem State.setPc_x (s : State) (p : Nat) : (s.setPc p).x = s.x := rfl
@[simp] theorem State.setPc_pc (s : State) (p : Nat) : (s.setPc p).pc = p := rfl
@[simp] theorem State.setPc_fl (s : State) (p : Nat) : (s.setPc p).fl = s.fl := rfl
@[simp] theorem State.setPc_run (s : State) (p : Nat) : (s.setPc p).run = s.run := rfl
@[simp] theorem State.setPc_fault (s : State) (p : Nat) : (s.setPc p).fault = s.fault := rfl
@[simp] theorem State.setPc_out (s : State) (p : Nat) : (s.setPc p).out = s.out := rfl

/-! ### `State.setFlags` -/

@[simp] theorem State.setFlags_mem (s : State) (f : Flags) : (s.setFlags f).mem = s.mem := rfl
@[simp] theorem State.setFlags_x (s : State) (f : Flags) : (s.setFlags f).x = s.x := rfl
@[simp] theorem State.setFlags_pc (s : State) (f : Flags) : (s.setFlags f).pc = s.pc := rfl
@[simp] theorem State.setFlags_fl (s : State) (f : Flags) : (s.setFlags f).fl = f := rfl
@[simp] theorem State.setFlags_run (s : State) (f : Flags) : (s.setFlags f).run = s.run := rfl
@[simp] theorem State.setFlags_fault (s : State) (f : Flags) : (s.setFlags f).fault = s.fault := rfl
@[simp] theorem State.setFlags_out (s : State) (f : Flags) : (s.setFlags f).out = s.out := rfl

/-! ### `State.emit` -/

@[simp] theorem State.emit_mem (s : State) (v : Byte) : (s.emit v).mem = s.mem := rfl
@[simp] theorem State.emit_x (s : State) (v : Byte) : (s.emit v).x = s.x := rfl
@[simp] theorem State.emit_pc (s : State) (v : Byte) : (s.emit v).pc = s.pc := rfl
@[simp] theorem State.emit_fl (s : State) (v : Byte) : (s.emit v).fl = s.fl := rfl
@[simp] theorem State.emit_run (s : State) (v : Byte) : (s.emit v).run = s.run := rfl
@[simp] theorem State.emit_fault (s : State) (v : Byte) : (s.emit v).fault = s.fault := rfl
@[simp] theorem State.emit_out (s : State) (v : Byte) : (s.emit v).out = s.out ++ [v] := rfl

/-! ### `State.halt` -/

@[simp] theorem State.halt_mem (s : State) : (s.halt).mem = s.mem := rfl
@[simp] theorem State.halt_x (s : State) : (s.halt).x = s.x := rfl
@[simp] theorem State.halt_pc (s : State) : (s.halt).pc = s.pc := rfl
@[simp] theorem State.halt_fl (s : State) : (s.halt).fl = s.fl := rfl
@[simp] theorem State.halt_run (s : State) : (s.halt).run = .halted := rfl
@[simp] theorem State.halt_fault (s : State) : (s.halt).fault = s.fault := rfl
@[simp] theorem State.halt_out (s : State) : (s.halt).out = s.out := rfl

/-! ### `State.raise` -/

@[simp] theorem State.raise_mem (s : State) (e : FaultEvent) : (s.raise e).mem = s.mem := rfl
@[simp] theorem State.raise_x (s : State) (e : FaultEvent) : (s.raise e).x = s.x := rfl
@[simp] theorem State.raise_pc (s : State) (e : FaultEvent) : (s.raise e).pc = s.pc := rfl
@[simp] theorem State.raise_fl (s : State) (e : FaultEvent) : (s.raise e).fl = s.fl := rfl
@[simp] theorem State.raise_run (s : State) (e : FaultEvent) : (s.raise e).run = .faulted := rfl
@[simp] theorem State.raise_fault (s : State) (e : FaultEvent) : (s.raise e).fault = some ⟨e.cause, s.pc, e.info⟩ := rfl
@[simp] theorem State.raise_out (s : State) (e : FaultEvent) : (s.raise e).out = s.out := rfl

/-! ### `State.decSp` -/

@[simp] theorem State.decSp_mem (s : State) : (s.decSp).mem = s.mem := rfl
@[simp] theorem State.decSp_pc (s : State) : (s.decSp).pc = s.pc := rfl
@[simp] theorem State.decSp_fl (s : State) : (s.decSp).fl = s.fl := rfl
@[simp] theorem State.decSp_run (s : State) : (s.decSp).run = s.run := rfl
@[simp] theorem State.decSp_fault (s : State) : (s.decSp).fault = s.fault := rfl
@[simp] theorem State.decSp_out (s : State) : (s.decSp).out = s.out := rfl

/-! ### `State.incSp` -/

@[simp] theorem State.incSp_mem (s : State) : (s.incSp).mem = s.mem := rfl
@[simp] theorem State.incSp_pc (s : State) : (s.incSp).pc = s.pc := rfl
@[simp] theorem State.incSp_fl (s : State) : (s.incSp).fl = s.fl := rfl
@[simp] theorem State.incSp_run (s : State) : (s.incSp).run = s.run := rfl
@[simp] theorem State.incSp_fault (s : State) : (s.incSp).fault = s.fault := rfl
@[simp] theorem State.incSp_out (s : State) : (s.incSp).out = s.out := rfl

/-! ### Registers after each update -/

@[simp] theorem State.setReg_reg_same (s : State) (i : RegIdx) (v : Byte) : (s.setReg i v).reg i = v := by
  simp only [State.reg, State.setReg, Vector.get_eq_getElem]
  exact Vector.getElem_set_self i.isLt

theorem State.setReg_reg_other (s : State) {i j : RegIdx} (v : Byte) (h : j ≠ i) :
    (s.setReg i v).reg j = s.reg j := by
  have h' : i.val ≠ j.val := fun e => h (Fin.ext e.symm)
  simp only [State.reg, State.setReg, Vector.get_eq_getElem]
  exact Vector.getElem_set_ne i.isLt j.isLt h'

theorem State.setReg_reg (s : State) (i j : RegIdx) (v : Byte) :
    (s.setReg i v).reg j = if j = i then v else s.reg j := by
  by_cases h : j = i
  · subst h; simp
  · simp [h, State.setReg_reg_other]

@[simp] theorem State.setMem_reg (s : State) (m : Memory) (j : RegIdx) : (s.setMem m).reg j = s.reg j := rfl
@[simp] theorem State.setMem_sp (s : State) (m : Memory) : (s.setMem m).sp = s.sp := rfl
@[simp] theorem State.setPc_reg (s : State) (p : Nat) (j : RegIdx) : (s.setPc p).reg j = s.reg j := rfl
@[simp] theorem State.setPc_sp (s : State) (p : Nat) : (s.setPc p).sp = s.sp := rfl
@[simp] theorem State.setFlags_reg (s : State) (f : Flags) (j : RegIdx) : (s.setFlags f).reg j = s.reg j := rfl
@[simp] theorem State.setFlags_sp (s : State) (f : Flags) : (s.setFlags f).sp = s.sp := rfl
@[simp] theorem State.emit_reg (s : State) (v : Byte) (j : RegIdx) : (s.emit v).reg j = s.reg j := rfl
@[simp] theorem State.emit_sp (s : State) (v : Byte) : (s.emit v).sp = s.sp := rfl
@[simp] theorem State.halt_reg (s : State) (j : RegIdx) : (s.halt).reg j = s.reg j := rfl
@[simp] theorem State.halt_sp (s : State) : (s.halt).sp = s.sp := rfl
@[simp] theorem State.raise_reg (s : State) (e : FaultEvent) (j : RegIdx) : (s.raise e).reg j = s.reg j := rfl
@[simp] theorem State.raise_sp (s : State) (e : FaultEvent) : (s.raise e).sp = s.sp := rfl

theorem State.sp_eq_reg (s : State) : s.sp = s.reg spIdx := rfl

/-- The decremented stack pointer, as byte subtraction: it wraps from 0 to 255 (20_memory.md R69). -/
theorem decremented_eq (v : Byte) : BitVec.ofNat 8 ((v.toNat + 255) % 256) = v - 1 := by
  apply BitVec.eq_of_toNat_eq
  simp [BitVec.toNat_sub]
  omega

/-- The incremented stack pointer, as byte addition: it wraps from 255 to 0 (20_memory.md R69). -/
theorem incremented_eq (v : Byte) : BitVec.ofNat 8 ((v.toNat + 1) % 256) = v + 1 := by
  apply BitVec.eq_of_toNat_eq
  simp [BitVec.toNat_add]

theorem State.decSp_eq (s : State) : s.decSp = s.setReg spIdx (s.sp - 1) := by
  rw [State.decSp, decremented_eq]

theorem State.incSp_eq (s : State) : s.incSp = s.setReg spIdx (s.sp + 1) := by
  rw [State.incSp, incremented_eq]

@[simp] theorem State.decSp_sp (s : State) : s.decSp.sp = s.sp - 1 := by
  rw [State.decSp_eq, State.sp_eq_reg, State.setReg_reg_same]

@[simp] theorem State.incSp_sp (s : State) : s.incSp.sp = s.sp + 1 := by
  rw [State.incSp_eq, State.sp_eq_reg, State.setReg_reg_same]

theorem State.decSp_reg (s : State) (j : RegIdx) :
    s.decSp.reg j = if j = spIdx then s.sp - 1 else s.reg j := by
  rw [State.decSp_eq, State.setReg_reg]

theorem State.incSp_reg (s : State) (j : RegIdx) :
    s.incSp.reg j = if j = spIdx then s.sp + 1 else s.reg j := by
  rw [State.incSp_eq, State.setReg_reg]

/-- Two states with the same registers, one by one, have the same register file. -/
theorem State.x_ext {s t : State} (h : ∀ j, t.reg j = s.reg j) : t.x = s.x := by
  apply Vector.ext
  intro k hk
  exact h ⟨k, hk⟩

end Sys2Proof.Machine
end

