-- ==== Sys2Proof/Laws/Memory.lean ====
section
/-! SUPPORT. The memory array: what a read gives after a write, and that every operation keeps the canonical form. -/

namespace Sys2Proof.Machine

@[simp] theorem Memory.read_nil (a : Nat) : Memory.read [] a = Memory.unlisted := rfl

theorem Memory.read_list_cons (b : Nat) (w : Byte) (m : Memory) (a : Nat) :
    Memory.read ((b, w) :: m) a = if a = b then w else Memory.read m a := rfl

/-- An address that no cell lists reads as an unlisted one. -/
theorem Memory.read_of_not_listed {m : Memory} {a : Nat} (h : ∀ c ∈ m, c.1 ≠ a) :
    m.read a = Memory.unlisted := by
  induction m with
  | nil => rfl
  | cons c m ih =>
    obtain ⟨b, w⟩ := c
    have hb : b ≠ a := h (b, w) (by simp)
    rw [Memory.read_list_cons, if_neg (Ne.symm hb)]
    exact ih fun c hc => h c (by simp [hc])

theorem Memory.read_cons_same {a : Nat} {m : Memory} (v : Byte) (h : ∀ c ∈ m, c.1 ≠ a) :
    (Memory.cons a v m).read a = v := by
  unfold Memory.cons
  split
  · rw [Memory.read_of_not_listed h]; simp_all
  · simp [Memory.read_list_cons]

theorem Memory.read_cons_other {a b : Nat} (v : Byte) (m : Memory) (h : b ≠ a) :
    (Memory.cons a v m).read b = m.read b := by
  unfold Memory.cons
  split
  · rfl
  · simp [Memory.read_list_cons, h]

/-- A write leaves every other address alone, in any memory (20_memory.md R62, R67). -/
theorem Memory.read_write_other (m : Memory) {a b : Nat} (v : Byte) (h : b ≠ a) :
    (m.write a v).read b = m.read b := by
  induction m with
  | nil => exact Memory.read_cons_other v [] h
  | cons c m ih =>
    obtain ⟨d, w⟩ := c
    simp only [Memory.write]
    split
    · exact Memory.read_cons_other v _ h
    · split
      · next hd => rw [Memory.read_cons_other v m h, Memory.read_list_cons, if_neg (hd ▸ h)]
      · simp only [Memory.read_list_cons, ih]

/-- In a canonical memory a read after a write to the same address gives the value written. -/
theorem Memory.read_write_same {m : Memory} (hm : m.Pairwise (fun c d => c.1 < d.1)) (a : Nat) (v : Byte) :
    (m.write a v).read a = v := by
  induction m with
  | nil => exact Memory.read_cons_same v (by simp)
  | cons c m ih =>
    obtain ⟨d, w⟩ := c
    rw [List.pairwise_cons] at hm
    simp only [Memory.write]
    split
    · next had =>
      apply Memory.read_cons_same
      rintro c (_ | ⟨_, hc⟩)
      · exact (Nat.ne_of_lt had).symm
      · exact Nat.ne_of_gt (Nat.lt_trans had (hm.1 _ hc))
    · split
      · next hd =>
        subst hd
        exact Memory.read_cons_same v fun c hc => Nat.ne_of_gt (hm.1 c hc)
      · next hd => rw [Memory.read_list_cons, if_neg hd, ih hm.2]

theorem Memory.mem_cons {a : Nat} {v : Byte} {m : Memory} {c : Host.Cell} (h : c ∈ Memory.cons a v m) :
    (c = (a, v) ∧ v ≠ Memory.unlisted) ∨ c ∈ m := by
  unfold Memory.cons at h
  split at h
  · exact .inr h
  · next hv => exact (List.mem_cons.1 h).imp (fun e => ⟨e, hv⟩) id

theorem Memory.mem_write {m : Memory} {a : Nat} {v : Byte} {c : Host.Cell} (h : c ∈ m.write a v) :
    (c = (a, v) ∧ v ≠ Memory.unlisted) ∨ c ∈ m := by
  induction m with
  | nil => exact Memory.mem_cons h
  | cons d m ih =>
    obtain ⟨d, w⟩ := d
    simp only [Memory.write] at h
    split at h
    · exact Memory.mem_cons h
    · split at h
      · exact (Memory.mem_cons h).imp id (List.mem_cons_of_mem _)
      · rcases List.mem_cons.1 h with e | h
        · exact .inr (by simp [e])
        · exact (ih h).imp id (List.mem_cons_of_mem _)

theorem Memory.cons_sorted {a : Nat} {v : Byte} {m : Memory} (hm : m.Pairwise (fun c d => c.1 < d.1))
    (h : ∀ c ∈ m, a < c.1) : (Memory.cons a v m).Pairwise (fun c d => c.1 < d.1) := by
  unfold Memory.cons
  split
  · exact hm
  · exact List.pairwise_cons.2 ⟨h, hm⟩

theorem Memory.write_sorted {m : Memory} (hm : m.Pairwise (fun c d => c.1 < d.1)) (a : Nat) (v : Byte) :
    (m.write a v).Pairwise (fun c d => c.1 < d.1) := by
  induction m with
  | nil => exact Memory.cons_sorted hm (by simp)
  | cons d m ih =>
    obtain ⟨d, w⟩ := d
    have hm' := List.pairwise_cons.1 hm
    simp only [Memory.write]
    split
    · next had =>
      apply Memory.cons_sorted hm
      rintro c (_ | ⟨_, hc⟩)
      · exact had
      · exact Nat.lt_trans had (hm'.1 _ hc)
    · split
      · next hd =>
        subst hd
        exact Memory.cons_sorted hm'.2 hm'.1
      · refine List.pairwise_cons.2 ⟨?_, ih hm'.2⟩
        intro c hc
        rcases Memory.mem_write hc with ⟨rfl, _⟩ | hc
        · show d < a; omega
        · exact hm'.1 c hc

/-- Every write inside the address space keeps the canonical form. -/
theorem Memory.write_wf {m : Memory} (hm : m.wf) {a : Nat} (ha : a ≤ 255) (v : Byte) : (m.write a v).wf := by
  refine ⟨Memory.write_sorted hm.1 a v, fun c hc => ?_⟩
  rcases Memory.mem_write hc with ⟨rfl, hv⟩ | hc
  · exact ⟨ha, hv⟩
  · exact hm.2 c hc

theorem Memory.place_cons (m : Memory) (a : Nat) (v : Byte) (vs : List Byte) :
    m.place a (v :: vs) = Memory.place (if a ≤ 255 then m.write a v else m) (a + 1) vs := rfl

/-- Placing bytes keeps the canonical form. -/
theorem Memory.place_wf {m : Memory} (hm : m.wf) (a : Nat) (vs : List Byte) : (m.place a vs).wf := by
  induction vs generalizing m a with
  | nil => exact hm
  | cons v vs ih =>
    rw [Memory.place_cons]
    apply ih
    split
    · next ha => exact Memory.write_wf hm ha v
    · exact hm

/-- Placing bytes leaves the addresses below the first one and above the last one alone. -/
theorem Memory.read_place_outside (m : Memory) (a : Nat) (vs : List Byte) {b : Nat}
    (h : b < a ∨ a + vs.length ≤ b) : (m.place a vs).read b = m.read b := by
  induction vs generalizing m a with
  | nil => rfl
  | cons v vs ih =>
    simp only [List.length_cons] at h
    rw [Memory.place_cons, ih _ _ (by omega)]
    split
    · exact Memory.read_write_other m v (by omega)
    · rfl

/-- A placed byte is read back, where its address exists. -/
theorem Memory.read_place_inside {m : Memory} (hm : m.wf) (a : Nat) (vs : List Byte) {k : Nat}
    (hk : k < vs.length) (ha : a + k ≤ 255) : (m.place a vs).read (a + k) = vs[k] := by
  induction vs generalizing m a k with
  | nil => simp at hk
  | cons v vs ih =>
    rw [Memory.place_cons, if_pos (by omega)]
    have hw := Memory.write_wf hm (a := a) (by omega) v
    cases k with
    | zero =>
      show (Memory.place (m.write a v) (a + 1) vs).read a = v
      rw [Memory.read_place_outside _ _ _ (by omega), Memory.read_write_same hm.1]
    | succ k =>
      have := ih (m := m.write a v) (a := a + 1) hw (k := k) (by simpa using hk) (by omega)
      rw [show a + (k + 1) = a + 1 + k by omega, this]
      rfl

end Sys2Proof.Machine
end

