-- ==== Sys2Proof/Laws/Ops.lean ====
section
/-! SUPPORT. What each shared operation can do: the memory accesses, the register operand and its check, the ALU, the
end of a step, and construction. -/

namespace Sys2Proof.Machine

/-! ### Memory accesses -/

/-- A read at a byte address always answers (20_memory.md R61). -/
@[simp] theorem State.memRead_byte (s : State) (a : Byte) : s.memRead a.toNat = .ok (s.mem.read a.toNat) := by
  have := a.isLt
  rw [State.memRead, if_pos (by omega)]

/-- A write at a byte address always answers (20_memory.md R62). -/
@[simp] theorem State.memWrite_byte (s : State) (a v : Byte) :
    s.memWrite a.toNat v = .ok (s.setMem (s.mem.write a.toNat v)) := by
  have := a.isLt
  rw [State.memWrite, if_pos (by omega)]

theorem Memory.write_byte_wf {m : Memory} (hm : m.wf) (a v : Byte) : (m.write a.toNat v).wf :=
  Memory.write_wf hm (by have := a.isLt; omega) v

/-! ### Register operands -/

@[simp] theorem regByte_toNat (i : RegIdx) : (regByte i).toNat = i.val := by
  have := i.isLt
  simp only [regByte, BitVec.toNat_ofNat]
  omega

@[simp] theorem regOperand_regByte (i : RegIdx) : regOperand (regByte i) = .ok i := by
  have h : (regByte i).toNat < 8 := by rw [regByte_toNat]; exact i.isLt
  rw [regOperand, dif_pos h]
  exact congrArg Except.ok (Fin.ext (regByte_toNat i))

/-- A byte below 8 is the operand byte of a register. -/
theorem exists_regByte {b : Byte} (h : b.toNat < 8) : ∃ i : RegIdx, b = regByte i :=
  ⟨⟨b.toNat, h⟩, by apply BitVec.eq_of_toNat_eq; rw [regByte_toNat]⟩

/-- A register operand of 8 or more is refused with the byte (30_encoding.md R87). -/
theorem regOperand_bad {b : Byte} (h : 8 ≤ b.toNat) : regOperand b = .error (outOfRange .reg b.toNat) := by
  rw [regOperand, dif_neg (by omega)]

@[simp] theorem withReg_regByte (i : RegIdx) (k : RegIdx → Except FaultEvent State) :
    withReg (regByte i) k = k i := by
  rw [withReg, regOperand_regByte]

theorem withReg_bad {b : Byte} (h : 8 ≤ b.toNat) (k : RegIdx → Except FaultEvent State) :
    withReg b k = .error (outOfRange .reg b.toNat) := by
  rw [withReg, regOperand_bad h]

/-- A register operand names a register or is refused with its byte: nothing else can happen. -/
theorem withReg_cases (b : Byte) (k : RegIdx → Except FaultEvent State) :
    (∃ i, b = regByte i ∧ withReg b k = k i) ∨
      (8 ≤ b.toNat ∧ withReg b k = .error (outOfRange .reg b.toNat)) := by
  by_cases h : b.toNat < 8
  · obtain ⟨i, rfl⟩ := exists_regByte h
    exact .inl ⟨i, rfl, withReg_regByte i k⟩
  · exact .inr ⟨by omega, withReg_bad (by omega) k⟩

/-! ### The ALU and the comparison -/

/-- The ALU's sum is byte addition (42_arithmetic.md R130). -/
theorem aluAdd_eq (a b : Byte) : aluAdd a b = a + b := by
  apply BitVec.eq_of_toNat_eq
  simp [aluAdd, BitVec.toNat_add]

/-- The ALU's product is byte multiplication (42_arithmetic.md R130). -/
theorem aluMul_eq (a b : Byte) : aluMul a b = a * b := by
  apply BitVec.eq_of_toNat_eq
  simp [aluMul, BitVec.toNat_mul]

/-- A comparison leaves a reachable flag value (10_state.md R42). -/
theorem compareFlags_reachable (a b : Byte) : (compareFlags a b).reachable = true := by
  unfold compareFlags
  split
  · rfl
  · split <;> rfl

/-! ### The end of a step -/

theorem State.advance_setsPC (s : State) {o : Opcode} (h : setsPC o.byte = true) : s.advance o = s := by
  rw [State.advance, if_pos h]

theorem State.advance_len (s : State) {o : Opcode} (h : setsPC o.byte = false) :
    s.advance o = s.setPc (s.pc + instrLen o.byte) := by
  rw [State.advance, if_neg (by simp [h])]

@[simp] theorem State.advance_ldi (s : State) : s.advance .ldi = s.setPc (s.pc + 3) := rfl
@[simp] theorem State.advance_prn (s : State) : s.advance .prn = s.setPc (s.pc + 2) := rfl
@[simp] theorem State.advance_mul (s : State) : s.advance .mul = s.setPc (s.pc + 3) := rfl
@[simp] theorem State.advance_push (s : State) : s.advance .push = s.setPc (s.pc + 2) := rfl
@[simp] theorem State.advance_pop (s : State) : s.advance .pop = s.setPc (s.pc + 2) := rfl
@[simp] theorem State.advance_call (s : State) : s.advance .call = s := rfl
@[simp] theorem State.advance_ret (s : State) : s.advance .ret = s := rfl
@[simp] theorem State.advance_add (s : State) : s.advance .add = s.setPc (s.pc + 3) := rfl
@[simp] theorem State.advance_jmp (s : State) : s.advance .jmp = s := rfl
@[simp] theorem State.advance_jeq (s : State) : s.advance .jeq = s := rfl
@[simp] theorem State.advance_jne (s : State) : s.advance .jne = s := rfl
@[simp] theorem State.advance_cmp (s : State) : s.advance .cmp = s.setPc (s.pc + 3) := rfl

@[simp] theorem settle_ok (o : Opcode) (s t : State) : settle o s (.ok t) = .next (t.advance o) := rfl
@[simp] theorem settle_error (o : Opcode) (s : State) (e : FaultEvent) :
    settle o s (.error e) = .next (s.raise e) := rfl

/-- A handler's answer always ends in a next state: the advanced one or fault entry. -/
theorem settle_cases (o : Opcode) (s : State) (r : Except FaultEvent State) :
    (∃ t, r = .ok t ∧ settle o s r = .next (t.advance o)) ∨
      (∃ e, r = .error e ∧ settle o s r = .next (s.raise e)) := by
  cases r with
  | ok t => exact .inl ⟨t, rfl, rfl⟩
  | error e => exact .inr ⟨e, rfl, rfl⟩

/-! ### Construction -/

/-- What `construct` answers, if it answers: the image is acceptable and lies over the reset state. -/
theorem construct_eq_some {image : List Nat} {spReset : Byte} {s : State} (h : construct image spReset = some s) :
    ImageOk image ∧
      s = (State.reset.setReg spIdx spReset).setMem (Memory.place [] 0 (image.map (BitVec.ofNat 8))) := by
  unfold construct at h
  split at h
  · next hi => exact ⟨hi, (Option.some.inj h).symm⟩
  · exact absurd h (by simp)

end Sys2Proof.Machine
end

