-- ==== Sys2Proof/Laws/Exec.lean ====
section
/-! SUPPORT. What each instruction and each step can do, said once: the meaning of every instruction on registers that
exist, its fault on registers that do not, and the cases of a step. The claims' proofs cite these instead of unfolding
the meanings. -/

namespace Sys2Proof.Machine

/-! ### Each instruction on existing registers -/

theorem exec_ldi (i : RegIdx) (imm : Byte) (s : State) :
    exec (.ldi (regByte i) imm) s = .next ((s.setReg i imm).setPc (s.pc + 3)) := by
  simp [exec, execLdi]

theorem exec_prn (i : RegIdx) (s : State) :
    exec (.prn (regByte i)) s = .next ((s.emit (s.reg i)).setPc (s.pc + 2)) := by
  simp [exec, execPrn]

theorem exec_add (i j : RegIdx) (s : State) :
    exec (.add (regByte i) (regByte j)) s = .next ((s.setReg i (s.reg i + s.reg j)).setPc (s.pc + 3)) := by
  simp [exec, execAdd, aluAdd_eq]

theorem exec_mul (i j : RegIdx) (s : State) :
    exec (.mul (regByte i) (regByte j)) s = .next ((s.setReg i (s.reg i * s.reg j)).setPc (s.pc + 3)) := by
  simp [exec, execMul, aluMul_eq]

theorem exec_push (i : RegIdx) (s : State) :
    exec (.push (regByte i)) s =
      .next ((s.decSp.setMem (s.mem.write (s.sp - 1).toNat (s.decSp.reg i))).setPc (s.pc + 2)) := by
  simp only [exec, execPush, withReg_regByte, State.memWrite_byte, settle_ok, State.decSp_sp, State.advance_push,
    State.decSp_mem, State.setMem_pc, State.decSp_pc]

theorem exec_pop (i : RegIdx) (s : State) :
    exec (.pop (regByte i)) s =
      .next ((s.setReg i (s.mem.read s.sp.toNat)).incSp.setPc (s.pc + 2)) := by
  simp only [exec, execPop, withReg_regByte, State.memRead_byte, settle_ok, State.advance_pop, State.incSp_pc,
    State.setReg_pc]

theorem exec_halt (s : State) : exec .halt s = .next s.halt := rfl

theorem exec_call (i : RegIdx) (s : State) (h : s.pc + 2 ≤ 255) :
    exec (.call (regByte i)) s =
      .next ((s.decSp.setMem (s.mem.write (s.sp - 1).toNat (BitVec.ofNat 8 (s.pc + 2)))).setPc
        (s.decSp.reg i).toNat) := by
  have h' : ¬255 < s.pc + 2 := by omega
  simp only [exec, execCall, withReg_regByte, if_neg h', State.memWrite_byte, settle_ok, State.decSp_sp,
    State.advance_call, State.decSp_mem, State.setMem_reg]

theorem exec_call_far (i : RegIdx) (s : State) (h : 255 < s.pc + 2) :
    exec (.call (regByte i)) s = .next (s.raise (outOfRange .retAddr (s.pc + 2))) := by
  simp only [exec, execCall, withReg_regByte, if_pos h, settle_error]

theorem exec_ret (s : State) :
    exec .ret s = .next (s.setPc (s.mem.read s.sp.toNat).toNat).incSp := by
  simp only [exec, execRet, State.memRead_byte, settle_ok, State.advance_ret]

theorem exec_jmp (i : RegIdx) (s : State) :
    exec (.jmp (regByte i)) s = .next (s.setPc (s.reg i).toNat) := by
  simp [exec, execJmp]

theorem exec_jeq (i : RegIdx) (s : State) :
    exec (.jeq (regByte i)) s = .next (s.setPc (if s.fl.e then (s.reg i).toNat else s.pc + 2)) := by
  simp [exec, execJeq]

theorem exec_jne (i : RegIdx) (s : State) :
    exec (.jne (regByte i)) s = .next (s.setPc (if s.fl.e then s.pc + 2 else (s.reg i).toNat)) := by
  simp [exec, execJne]

theorem exec_cmp (i j : RegIdx) (s : State) :
    exec (.cmp (regByte i) (regByte j)) s =
      .next ((s.setFlags (compareFlags (s.reg i) (s.reg j))).setPc (s.pc + 3)) := by
  simp [exec, execCmp]

/-! ### Register operands that do not exist -/

/-- One bad register operand: the instruction takes OutOfRange(REG) with the first one, in operand order
(40_fetch_execute.md R105). -/
theorem settle_withReg_bad (o : Opcode) {b : Byte} (h : 8 ≤ b.toNat) (s : State)
    (k : RegIdx → Except FaultEvent State) : settle o s (withReg b k) = .next (s.raise (outOfRange .reg b.toNat)) := by
  rw [withReg_bad h]; rfl

/-- An instruction with a bad register operand takes OutOfRange(REG) with the first one, in every state. -/
theorem exec_firstBad {i : Instr} {b : Byte} (h : i.firstBad = some b) (s : State) :
    exec i s = .next (s.raise (outOfRange .reg b.toNat)) := by
  have h8 : 8 ≤ b.toNat := by simpa using List.find?_some h
  cases i with
  | halt | ret => simp [Instr.firstBad, Instr.regOperands] at h
  | ldi r _ | prn r | push r | pop r | call r | jmp r | jeq r | jne r =>
    obtain rfl : b = r := by simpa [Instr.regOperands] using List.mem_of_find?_eq_some h
    exact settle_withReg_bad _ h8 s _
  | mul a c | add a c | cmp a c =>
    by_cases ha : 8 ≤ a.toNat
    · obtain rfl : a = b := by simpa [Instr.firstBad, Instr.regOperands, ha] using h
      exact settle_withReg_bad _ h8 s _
    · obtain ⟨_, rfl⟩ : _ ∧ c = b := by simpa [Instr.firstBad, Instr.regOperands, ha] using h
      obtain ⟨i, rfl⟩ := exists_regByte (b := a) (by omega)
      simp only [exec, execMul, execAdd, execCmp, withReg_regByte]
      exact settle_withReg_bad _ h8 s _

/-! ### What an instruction can do -/

/-- The effect of an instruction whose checks pass, as a relation between the states before and after. -/
def Effect : Instr → State → State → Prop
  | .ldi r imm, s, t => ∃ i, r = regByte i ∧ t = (s.setReg i imm).setPc (s.pc + 3)
  | .prn r, s, t => ∃ i, r = regByte i ∧ t = (s.emit (s.reg i)).setPc (s.pc + 2)
  | .mul a b, s, t =>
    ∃ i j, a = regByte i ∧ b = regByte j ∧ t = (s.setReg i (s.reg i * s.reg j)).setPc (s.pc + 3)
  | .push r, s, t => ∃ i, r = regByte i ∧
    t = (s.decSp.setMem (s.mem.write (s.sp - 1).toNat (s.decSp.reg i))).setPc (s.pc + 2)
  | .pop r, s, t => ∃ i, r = regByte i ∧ t = (s.setReg i (s.mem.read s.sp.toNat)).incSp.setPc (s.pc + 2)
  | .halt, s, t => t = s.halt
  | .call r, s, t => ∃ i, r = regByte i ∧ s.pc + 2 ≤ 255 ∧
    t = (s.decSp.setMem (s.mem.write (s.sp - 1).toNat (BitVec.ofNat 8 (s.pc + 2)))).setPc (s.decSp.reg i).toNat
  | .ret, s, t => t = (s.setPc (s.mem.read s.sp.toNat).toNat).incSp
  | .add a b, s, t =>
    ∃ i j, a = regByte i ∧ b = regByte j ∧ t = (s.setReg i (s.reg i + s.reg j)).setPc (s.pc + 3)
  | .jmp r, s, t => ∃ i, r = regByte i ∧ t = s.setPc (s.reg i).toNat
  | .jeq r, s, t => ∃ i, r = regByte i ∧ t = s.setPc (if s.fl.e then (s.reg i).toNat else s.pc + 2)
  | .jne r, s, t => ∃ i, r = regByte i ∧ t = s.setPc (if s.fl.e then s.pc + 2 else (s.reg i).toNat)
  | .cmp a b, s, t => ∃ i j, a = regByte i ∧ b = regByte j ∧
    t = (s.setFlags (compareFlags (s.reg i) (s.reg j))).setPc (s.pc + 3)

/-- Everything an instruction can do: take OutOfRange(REG) with a bad operand byte, take OutOfRange(RETADDR) (CALL
only), or have its effect. -/
theorem exec_cases (i : Instr) (s : State) :
    (∃ b, i.firstBad = some b ∧ exec i s = .next (s.raise (outOfRange .reg b.toNat))) ∨
    (∃ r, i = .call (regByte r) ∧ 255 < s.pc + 2 ∧ exec i s = .next (s.raise (outOfRange .retAddr (s.pc + 2)))) ∨
    (i.WellFormed ∧ ∃ t, Effect i s t ∧ exec i s = .next t) := by
  cases hb : i.firstBad with
  | some b => exact .inl ⟨b, rfl, exec_firstBad hb s⟩
  | none =>
    have hw := Instr.firstBad_eq_none.1 hb
    refine .inr ?_
    cases i with
    | halt => exact .inr ⟨hw, _, rfl, exec_halt s⟩
    | ret => exact .inr ⟨hw, _, rfl, exec_ret s⟩
    | ldi r imm =>
      obtain ⟨i, rfl⟩ := exists_regByte (hw r (by simp [Instr.regOperands]))
      exact .inr ⟨hw, _, ⟨i, rfl, rfl⟩, exec_ldi i imm s⟩
    | prn r =>
      obtain ⟨i, rfl⟩ := exists_regByte (hw r (by simp [Instr.regOperands]))
      exact .inr ⟨hw, _, ⟨i, rfl, rfl⟩, exec_prn i s⟩
    | push r =>
      obtain ⟨i, rfl⟩ := exists_regByte (hw r (by simp [Instr.regOperands]))
      exact .inr ⟨hw, _, ⟨i, rfl, rfl⟩, exec_push i s⟩
    | pop r =>
      obtain ⟨i, rfl⟩ := exists_regByte (hw r (by simp [Instr.regOperands]))
      exact .inr ⟨hw, _, ⟨i, rfl, rfl⟩, exec_pop i s⟩
    | call r =>
      obtain ⟨i, rfl⟩ := exists_regByte (hw r (by simp [Instr.regOperands]))
      by_cases h : 255 < s.pc + 2
      · exact .inl ⟨i, rfl, h, exec_call_far i s h⟩
      · exact .inr ⟨hw, _, ⟨i, rfl, by omega, rfl⟩, exec_call i s (by omega)⟩
    | jmp r =>
      obtain ⟨i, rfl⟩ := exists_regByte (hw r (by simp [Instr.regOperands]))
      exact .inr ⟨hw, _, ⟨i, rfl, rfl⟩, exec_jmp i s⟩
    | jeq r =>
      obtain ⟨i, rfl⟩ := exists_regByte (hw r (by simp [Instr.regOperands]))
      exact .inr ⟨hw, _, ⟨i, rfl, rfl⟩, exec_jeq i s⟩
    | jne r =>
      obtain ⟨i, rfl⟩ := exists_regByte (hw r (by simp [Instr.regOperands]))
      exact .inr ⟨hw, _, ⟨i, rfl, rfl⟩, exec_jne i s⟩
    | mul a b =>
      obtain ⟨i, rfl⟩ := exists_regByte (hw a (by simp [Instr.regOperands]))
      obtain ⟨j, rfl⟩ := exists_regByte (hw b (by simp [Instr.regOperands]))
      exact .inr ⟨hw, _, ⟨i, j, rfl, rfl, rfl⟩, exec_mul i j s⟩
    | add a b =>
      obtain ⟨i, rfl⟩ := exists_regByte (hw a (by simp [Instr.regOperands]))
      obtain ⟨j, rfl⟩ := exists_regByte (hw b (by simp [Instr.regOperands]))
      exact .inr ⟨hw, _, ⟨i, j, rfl, rfl, rfl⟩, exec_add i j s⟩
    | cmp a b =>
      obtain ⟨i, rfl⟩ := exists_regByte (hw a (by simp [Instr.regOperands]))
      obtain ⟨j, rfl⟩ := exists_regByte (hw b (by simp [Instr.regOperands]))
      exact .inr ⟨hw, _, ⟨i, j, rfl, rfl, rfl⟩, exec_cmp i j s⟩

/-! ### The fetch unit -/

/-- An instruction byte inside memory is the cell; outside it is OutOfRange(FETCH) (40_fetch_execute.md R102). -/
theorem State.fetchByte_eq (s : State) (a : Nat) :
    s.fetchByte a = if 255 < a then .error (outOfRange .fetch a) else .ok (s.mem.read a) := by
  unfold State.fetchByte State.memRead
  by_cases h : 255 < a
  · rw [if_pos h, if_pos h]
  · rw [if_neg h, if_neg h, if_pos (by omega)]

/-- What the operand fetch answers, if it answers: the bytes after the opcode, all of them inside memory
(40_fetch_execute.md R104). -/
theorem State.fetchOperands_ok {s : State} {p n : Nat} {b c : Byte} (hn : n ≤ 2) (hp : p ≤ 255)
    (h : s.fetchOperands p (1 + n) = .ok (b, c)) :
    p + n ≤ 255 ∧ ∀ k (hk : k < ([b, c].take n).length), s.mem.read (p + 1 + k) = ([b, c].take n)[k] := by
  match n, hn with
  | 0, _ => exact ⟨hp, by simp⟩
  | 1, _ =>
    by_cases h1 : 255 < p + 1
    · simp [State.fetchOperands, State.fetchByte_eq, h1] at h
    · simp only [State.fetchOperands, State.fetchByte_eq, if_neg h1] at h
      simp only [Nat.reduceAdd, Nat.lt_irrefl, if_false, Nat.reduceEqDiff, Except.ok.injEq, Prod.mk.injEq] at h
      refine ⟨by omega, fun k hk => ?_⟩
      obtain rfl : k = 0 := by simpa using hk
      exact h.1
  | 2, _ =>
    by_cases h1 : 255 < p + 1
    · simp [State.fetchOperands, State.fetchByte_eq, h1] at h
    · by_cases h2 : 255 < p + 2
      · simp [State.fetchOperands, State.fetchByte_eq, h1, h2] at h
      · simp only [State.fetchOperands, State.fetchByte_eq, if_neg h1, if_neg h2] at h
        simp only [Nat.reduceAdd, Nat.reduceLT, if_false, if_true, Except.ok.injEq, Prod.mk.injEq] at h
        refine ⟨by omega, fun k hk => ?_⟩
        have hk' : k < 2 := by simpa using hk
        match k, hk' with
        | 0, _ => exact h.1
        | 1, _ => exact h.2

/-- What the fetch answers, if it answers an instruction: its bytes lie from `pc` upward, all of them inside memory. -/
theorem State.fetchInstr_ok {s : State} {i : Instr} (h : s.fetchInstr = .ok i) :
    s.mem.read s.pc = i.opcode.byte ∧ s.pc + i.operands.length ≤ 255 ∧
      ∀ k (hk : k < i.operands.length), s.mem.read (s.pc + 1 + k) = i.operands[k] := by
  rw [State.fetchInstr, State.fetchOpcode, State.fetchByte_eq] at h
  by_cases hp : 255 < s.pc
  · simp [hp] at h
  · simp only [if_neg hp] at h
    by_cases h1 : s.mem.read s.pc = 0x01#8
    · rw [if_pos h1] at h
      obtain rfl := Except.ok.inj h
      exact ⟨h1, by simp [Instr.operands]; omega, by simp [Instr.operands]⟩
    · rw [if_neg h1] at h
      cases hd : decodeOpcode (s.mem.read s.pc) with
      | none => simp [hd] at h
      | some d =>
        obtain ⟨hop, hd'⟩ := decodeOpcode_eq_some.1 hd
        have hlen : d.len = 1 + operandCount d.name.byte := by rw [hd', hop]; rfl
        simp only [hd, hlen] at h
        cases hf : s.fetchOperands s.pc (1 + operandCount d.name.byte) with
        | error e => simp [hf] at h
        | ok bc =>
          obtain ⟨b, c⟩ := bc
          simp only [hf, Except.ok.injEq] at h
          subst h
          have hn : operandCount d.name.byte ≤ 2 := by rw [operandCount_byte]; split <;> omega
          obtain ⟨hle, hk⟩ := State.fetchOperands_ok hn (by omega) hf
          have hops := assemble_operands d.name b c
          have hcount := operandCount_opcode (assemble d.name b c)
          rw [assemble_opcode] at hcount
          refine ⟨by rw [assemble_opcode]; exact hop, by omega, fun k hk' => ?_⟩
          rw [hk k (by rw [← hops]; exact hk')]
          simp only [hops]

/-- What the operand fetch raises, if it raises: OutOfRange(FETCH, 256), near the end of memory. -/
theorem State.fetchOperands_error {s : State} {p n : Nat} {e : FaultEvent} (hn : n ≤ 2) (hp : p ≤ 255)
    (h : s.fetchOperands p (1 + n) = .error e) : e = outOfRange .fetch 256 ∧ 254 ≤ p ∧ 255 < p + n := by
  match n, hn with
  | 0, _ => simp [State.fetchOperands] at h
  | 1, _ =>
    by_cases h1 : 255 < p + 1
    · simp [State.fetchOperands, State.fetchByte_eq, h1] at h
      exact ⟨by rw [← h, show p = 255 by omega], by omega, by omega⟩
    · simp [State.fetchOperands, State.fetchByte_eq, h1] at h
  | 2, _ =>
    by_cases h1 : 255 < p + 1
    · simp [State.fetchOperands, State.fetchByte_eq, h1] at h
      exact ⟨by rw [← h, show p = 255 by omega], by omega, by omega⟩
    · by_cases h2 : 255 < p + 2
      · simp [State.fetchOperands, State.fetchByte_eq, h1, h2] at h
        exact ⟨by rw [← h, show p = 254 by omega], by omega, by omega⟩
      · simp [State.fetchOperands, State.fetchByte_eq, h1, h2] at h

/-- What the fetch raises, if it raises. -/
theorem State.fetchInstr_error {s : State} {e : FaultEvent} (h : s.fetchInstr = .error e) :
    (255 < s.pc ∧ e = outOfRange .fetch s.pc) ∨
    (s.pc ≤ 255 ∧ opcodeOf (s.mem.read s.pc) = none ∧ e = unrecognizedOpcode (s.mem.read s.pc)) ∨
    (254 ≤ s.pc ∧ s.pc ≤ 255 ∧ 255 < s.pc + operandCount (s.mem.read s.pc) ∧ e = outOfRange .fetch 256) := by
  rw [State.fetchInstr, State.fetchOpcode, State.fetchByte_eq] at h
  by_cases hp : 255 < s.pc
  · simp only [if_pos hp, Except.error.injEq] at h
    exact .inl ⟨hp, h.symm⟩
  · refine .inr ?_
    simp only [if_neg hp] at h
    by_cases h1 : s.mem.read s.pc = 0x01#8
    · simp [h1] at h
    · rw [if_neg h1] at h
      cases hd : decodeOpcode (s.mem.read s.pc) with
      | none =>
        simp only [hd, Except.error.injEq] at h
        exact .inl ⟨by omega, decodeOpcode_eq_none.1 hd, h.symm⟩
      | some d =>
        obtain ⟨hop, hd'⟩ := decodeOpcode_eq_some.1 hd
        have hlen : d.len = 1 + operandCount d.name.byte := by rw [hd', hop]; rfl
        have hn : operandCount d.name.byte ≤ 2 := by rw [operandCount_byte]; split <;> omega
        simp only [hd, hlen] at h
        cases hf : s.fetchOperands s.pc (1 + operandCount d.name.byte) with
        | ok bc => simp [hf] at h
        | error e' =>
          simp only [hf, Except.error.injEq] at h
          obtain ⟨he, hle, hlt⟩ := State.fetchOperands_error hn (by omega) hf
          exact .inr ⟨hle, by omega, by rw [hop]; exact hlt, by rw [← h, he]⟩

/-! ### The cases of a step -/

/-- A running machine either raises what its fetch raises or executes the instruction fetched. -/
theorem step_running {s : State} (h : s.run = .running) :
    step s = match s.fetchInstr with
      | .error e => .next (s.raise e)
      | .ok i => exec i s := by
  rw [step, h] <;> rfl

/-- Where a step answers a next state, the machine was running, and it took a fault of the fetch or executed the
instruction fetched. -/
theorem step_next_cases {s t : State} (h : step s = .next t) :
    s.run = .running ∧
      ((∃ e, s.fetchInstr = .error e ∧ t = s.raise e) ∨ (∃ i, s.fetchInstr = .ok i ∧ exec i s = .next t)) := by
  cases hr : s.run with
  | halted => simp [step, hr] at h
  | faulted => simp [step, hr] at h
  | running =>
    refine ⟨rfl, ?_⟩
    rw [step_running hr] at h
    cases hf : s.fetchInstr with
    | error e =>
      rw [hf] at h
      exact .inl ⟨e, rfl, (Host.Outcome.next.inj h).symm⟩
    | ok i =>
      rw [hf] at h
      exact .inr ⟨i, rfl, h⟩

end Sys2Proof.Machine
end

