-- ==== Sys2Proof/Laws/Frame.lean ====
section
/-! SUPPORT. Frames of the updates the instructions are made of. -/

namespace Sys2Proof.Machine

/-- A write of `pc` alone. -/
theorem keepsAllBut_setPc (s : State) (p : Nat) : KeepsAllBut s (s.setPc p) [] [] :=
  ⟨fun _ _ => rfl, fun _ _ => rfl, rfl, rfl, rfl, rfl⟩

/-- A write of one register and of `pc`. -/
theorem keepsAllBut_setReg_setPc (s : State) (i : RegIdx) (v : Byte) (p : Nat) :
    KeepsAllBut s ((s.setReg i v).setPc p) [i] [] := by
  refine ⟨fun j hj => ?_, fun _ _ => rfl, rfl, rfl, rfl, rfl⟩
  rw [State.setPc_reg, State.setReg_reg_other _ _ (by simpa using hj)]

/-- A store at the decremented stack pointer, with a write of `pc`. -/
theorem keepsAllBut_store_setPc (s : State) (v : Byte) (p : Nat) :
    KeepsAllBut s ((s.decSp.setMem (s.mem.write (s.sp - 1).toNat v)).setPc p) [spIdx] [s.decSp.sp.toNat] := by
  refine ⟨fun j hj => ?_, fun a ha => ?_, rfl, rfl, rfl, rfl⟩
  · rw [State.setPc_reg, State.setMem_reg, State.decSp_reg, if_neg (by simpa using hj)]
  · rw [State.decSp_sp] at ha
    exact Memory.read_write_other _ _ (by simpa using ha)

/-- A write of one register, then the increment of the stack pointer, with a write of `pc`. -/
theorem keepsAllBut_setReg_incSp_setPc (s : State) (i : RegIdx) (v : Byte) (p : Nat) :
    KeepsAllBut s ((s.setReg i v).incSp.setPc p) [i, spIdx] [] := by
  refine ⟨fun j hj => ?_, fun _ _ => rfl, rfl, rfl, rfl, rfl⟩
  simp only [List.mem_cons, List.not_mem_nil, or_false, not_or] at hj
  rw [State.setPc_reg, State.incSp_reg, if_neg hj.2, State.setReg_reg_other _ _ hj.1]

end Sys2Proof.Machine
end

