-- ==== Sys2Proof/Laws/PerInstr.lean ====
section
/-! SUPPORT. Families of facts about every instruction as syntax, one lemma per constructor (LAWS.json). -/

/-- The family of the encoded length: an instruction has as many bytes as its opcode byte alone says, and its register
operands are among its operand bytes (30_encoding.md R82, R86, R89). -/
def Sys2Proof.Laws.EncodedLength.Statement (i : Sys2Proof.Instr) : Prop :=
  (Sys2Proof.encode i).length = Sys2Proof.instrLen i.opcode.byte ∧ ∀ b ∈ i.regOperands, b ∈ i.operands

namespace Sys2Proof.Laws

/-- The length half of the family, for every instruction. -/
theorem encode_length (i : Instr) : (encode i).length = instrLen i.opcode.byte := by
  rw [instrLen, operandCount_opcode, encode, List.length_cons, Nat.add_comm]

theorem EncodedLength.ldi (r imm : Byte) : EncodedLength.Statement (.ldi r imm) :=
  ⟨encode_length _, by simp [Instr.regOperands, Instr.operands]⟩
theorem EncodedLength.prn (r : Byte) : EncodedLength.Statement (.prn r) := ⟨encode_length _, fun _ h => h⟩
theorem EncodedLength.mul (a b : Byte) : EncodedLength.Statement (.mul a b) := ⟨encode_length _, fun _ h => h⟩
theorem EncodedLength.push (r : Byte) : EncodedLength.Statement (.push r) := ⟨encode_length _, fun _ h => h⟩
theorem EncodedLength.pop (r : Byte) : EncodedLength.Statement (.pop r) := ⟨encode_length _, fun _ h => h⟩
theorem EncodedLength.halt : EncodedLength.Statement .halt := ⟨encode_length _, fun _ h => h⟩
theorem EncodedLength.call (r : Byte) : EncodedLength.Statement (.call r) := ⟨encode_length _, fun _ h => h⟩
theorem EncodedLength.ret : EncodedLength.Statement .ret := ⟨encode_length _, fun _ h => h⟩
theorem EncodedLength.add (a b : Byte) : EncodedLength.Statement (.add a b) := ⟨encode_length _, fun _ h => h⟩
theorem EncodedLength.jmp (r : Byte) : EncodedLength.Statement (.jmp r) := ⟨encode_length _, fun _ h => h⟩
theorem EncodedLength.jeq (r : Byte) : EncodedLength.Statement (.jeq r) := ⟨encode_length _, fun _ h => h⟩
theorem EncodedLength.jne (r : Byte) : EncodedLength.Statement (.jne r) := ⟨encode_length _, fun _ h => h⟩
theorem EncodedLength.cmp (a b : Byte) : EncodedLength.Statement (.cmp a b) := ⟨encode_length _, fun _ h => h⟩

end Sys2Proof.Laws
end

