-- ==== Sys2Proof/Tests/Slice0.lean ====
section
/-! SUPPORT. Tests of the model: expected results are the spec's own vectors (95_test_vectors.md) or its encodings,
never the model's answers; and for each statement with hypotheses, a state and operands that meet them. -/

namespace Sys2Proof.Tests

open Sys2Proof Sys2Proof.Machine

/-- The reset state with `pc` at `p` and some bytes lying from there upward. -/
def atPc (p : Nat) (bytes : List Byte) : State := (State.reset.setPc p).placeAtPc bytes

/-- The next state of an outcome. -/
def after : Host.Outcome State Fault Refusal → Option State
  | .next t => some t
  | .fault _ => none
  | .refused _ => none

/-- One thing about the next state. -/
def see {α : Type} (o : Host.Outcome State Fault Refusal) (f : State → α) : Option α := (after o).map f

/-! ### WellFormed: an ill-formed term for each check -/

theorem test_wellFormed_refuses :
    ∀ i ∈ [Instr.ldi 8 0, .prn 8, .mul 8 0, .mul 0 8, .push 8, .pop 8, .call 8, .add 8 0, .add 0 8, .jmp 8, .jeq 8, .jne 8, .cmp 8 0, .cmp 0 8],
      ¬ i.WellFormed ∧ i.firstBad = some 8 := by decide

theorem test_wellFormed_accepts :
    ∀ i ∈ [Instr.ldi 7 255, .prn 7, .mul 7 7, .push 7, .pop 7, .halt, .call 7, .ret, .add 7 7, .jmp 7, .jeq 7, .jne 7, .cmp 7 7],
      i.WellFormed := by decide

/-! ### Decoding and encoding, from the binary column of 30_encoding.md R85 and the formats of R80 -/

theorem test_decode_ldi : decode [0b10000010, 0b00000000, 0b00001000] = .ok (.ldi 0 8, []) := by decide
theorem test_decode_prn : decode [0b01000111, 0b00000000] = .ok (.prn 0, []) := by decide
theorem test_decode_mul : decode [0b10100010, 0b00000000, 0b00000001] = .ok (.mul 0 1, []) := by decide
theorem test_decode_push : decode [0b01000101, 0b00000001] = .ok (.push 1, []) := by decide
theorem test_decode_pop : decode [0b01000110, 0b00000101] = .ok (.pop 5, []) := by decide
theorem test_decode_halt : decode [0b00000001] = .ok (.halt, []) := by decide
theorem test_decode_call : decode [0b01010000, 0b00000001] = .ok (.call 1, []) := by decide
theorem test_decode_ret : decode [0b00010001] = .ok (.ret, []) := by decide
theorem test_decode_add : decode [0b10100000, 0b00000000, 0b00000001] = .ok (.add 0 1, []) := by decide
theorem test_decode_jmp : decode [0b01010100, 0b00000100] = .ok (.jmp 4, []) := by decide
theorem test_decode_jeq : decode [0b01010101, 0b00000010] = .ok (.jeq 2, []) := by decide
theorem test_decode_jne : decode [0b01010110, 0b00000100] = .ok (.jne 4, []) := by decide
theorem test_decode_cmp : decode [0b10100111, 0b00000001, 0b00000000] = .ok (.cmp 1 0, []) := by decide

theorem test_decode_leaves_the_rest : decode [0x47, 0x00, 0x01] = .ok (.prn 0, [0x01]) := by decide
theorem test_decode_keeps_bad_registers : decode [0x47, 0x08] = .ok (.prn 8, []) := by decide
/-- V-DEC2 to V-DEC6. -/
theorem test_decode_unrecognized :
    decode [0x00] = .error (.unrecognizedOpcode 0x00) ∧ decode [0xFF] = .error (.unrecognizedOpcode 0xFF) ∧
    decode [0xA1, 0, 0] = .error (.unrecognizedOpcode 0xA1) ∧
    decode [0xC2, 0, 0, 0] = .error (.unrecognizedOpcode 0xC2) ∧
    decode [0x02] = .error (.unrecognizedOpcode 0x02) := by decide
theorem test_decode_truncated :
    decode [] = .error .noBytes ∧ decode [0x82] = .error (.missingOperand 1) ∧
    decode [0x82, 0x00] = .error (.missingOperand 2) ∧ decode [0x45] = .error (.missingOperand 1) := by decide

theorem test_encode :
    encode (.ldi 0 8) = [0b10000010, 0b00000000, 0b00001000] ∧
    encode (.prn 0) = [0b01000111, 0b00000000] ∧
    encode (.mul 0 1) = [0b10100010, 0b00000000, 0b00000001] ∧
    encode (.push 1) = [0b01000101, 0b00000001] ∧
    encode (.pop 5) = [0b01000110, 0b00000101] ∧
    encode (.halt) = [0b00000001] ∧
    encode (.call 1) = [0b01010000, 0b00000001] ∧
    encode (.ret) = [0b00010001] ∧
    encode (.add 0 1) = [0b10100000, 0b00000000, 0b00000001] ∧
    encode (.jmp 4) = [0b01010100, 0b00000100] ∧
    encode (.jeq 2) = [0b01010101, 0b00000010] ∧
    encode (.jne 4) = [0b01010110, 0b00000100] ∧
    encode (.cmp 1 0) = [0b10100111, 0b00000001, 0b00000000] := by decide

/-- The fields of two opcode bytes (R81, and the table of W5): LDI and CALL. -/
theorem test_fields :
    (operandCount 0x82, aluMarker 0x82, setsPC 0x82, identifier 0x82) = (2, false, false, 2) ∧
    (operandCount 0x50, aluMarker 0xA7, setsPC 0x50, identifier 0xA7) = (1, true, true, 7) := by decide
theorem test_aluMarker_of_the_map :
    Opcode.all.filter (fun o => aluMarker o.byte) = [.mul, .add, .cmp] := by decide
/-- A table row's word: the first byte is the least significant one, and bits at and above `nbits` read 0. -/
theorem test_decodeTableWord :
    decodeTableWord 24 0x080082 = some (.ldi 0 8) ∧ decodeTableWord 8 0x080082 = some (.ldi 0 0) ∧
    decodeTableWord 8 0x01 = some .halt ∧ decodeTableWord 8 0xA1 = none := by decide
/-- Every row of the table runs as the first instruction after reset. -/
theorem test_withFetchWord_runs :
    [0x82, 0x47, 0xA2, 0x45, 0x46, 0x01, 0x50, 0x11, 0xA0, 0x54, 0x55, 0x56, 0xA7].all
      (fun w => see (step (State.reset.withFetchWord 8 w)) (fun t => t.run != .faulted) == some true) = true := by
  decide

/-! ### Fault codes (60_exceptions.md R200) -/

theorem test_fault_codes :
    FaultCause.unrecognizedOpcode.code = 1 ∧ FaultCause.outOfRange.code = 2 ∧
    FaultCause.unsupportedOperation.code = 3 := by decide

/-! ### One step of each instruction -/

/-- V-DM1: the largest immediate. -/
theorem test_ldi_largest_immediate :
    see (step (atPc 0 [0x82, 0x05, 0xFF])) (fun t => (t.reg 5, t.pc)) = some (255, 3) := by decide
/-- V-DM3 and V-DM4: the immediate is not checked, the register operand is. -/
theorem test_ldi_checks_only_the_register :
    see (step (atPc 0 [0x82, 0x03, 0x09])) (fun t => t.reg 3) = some 9 ∧
    see (step (atPc 0 [0x82, 0x08, 0x01])) (fun t => t.fault) = some (some ⟨.outOfRange, 0, .range .reg 8⟩) := by
  decide
/-- V-DM5 for every SP: PRN of R7 emits the stack pointer. -/
theorem test_prn_r7 :
    see (step ((atPc 0 [0x47, 0x07]).setReg 7 0x3C)) (fun t => (t.out, t.pc)) = some ([0x3C], 2) := by decide
/-- V-DM6: a bad register emits nothing. -/
theorem test_prn_bad_register :
    see (step (atPc 0 [0x47, 0x08])) (fun t => (t.run, t.out, t.pc)) = some (.faulted, [], 0) := by decide
/-- V-AR1, V-AR10: the sum wraps and no flag changes. -/
theorem test_add_wraps :
    see (step ((((atPc 0 [0xA0, 0x00, 0x01]).setReg 0 200).setReg 1 100).setFlags ⟨true, false, false⟩))
      (fun t => (t.reg 0, t.reg 1, t.fl)) = some (44, 100, ⟨true, false, false⟩) := by decide
/-- V-AR3: a register added to itself. -/
theorem test_add_same_register :
    see (step ((atPc 0 [0xA0, 0x02, 0x02]).setReg 2 128)) (fun t => t.reg 2) = some 0 := by decide
/-- V-AR6: the low byte of the product. -/
theorem test_mul_wraps :
    see (step (((atPc 0 [0xA2, 0x00, 0x01]).setReg 0 255).setReg 1 255)) (fun t => t.reg 0) = some 1 := by decide
/-- V-AR12: both register operands bad, the first is reported. -/
theorem test_mul_two_bad_registers :
    see (step (atPc 0 [0xA2, 0x09, 0x08])) (fun t => t.fault) = some (some ⟨.outOfRange, 0, .range .reg 9⟩) := by
  decide
/-- V-STK2: the stack pointer wraps from 0 to 255. -/
theorem test_push_wraps :
    see (step (((atPc 0 [0x45, 0x03]).setReg 3 0x42).setReg 7 0)) (fun t => (t.sp, t.mem.read 0xFF, t.pc))
      = some (0xFF, 0x42, 2) := by decide
/-- V-STK6: PUSH R7 stores the decremented stack pointer. -/
theorem test_push_r7 :
    see (step ((atPc 0 [0x45, 0x07]).setReg 7 0xFF)) (fun t => (t.sp, t.mem.read 0xFE)) = some (0xFE, 0xFE) := by
  decide
/-- V-STK8: POP can read program bytes. -/
theorem test_pop_reads_code :
    see (step ((atPc 0 [0x46, 0x02]).setReg 7 0x01)) (fun t => (t.reg 2, t.sp)) = some (2, 2) := by decide
/-- V-STK7: POP R7 loads the cell, then increments it. -/
theorem test_pop_r7 :
    see (step ((atPc 0 [0x46, 0x07]).setReg 7 0xFF)) (fun t => t.sp) = some 1 := by decide
/-- V-CTL15, V-CTL16: HALT leaves `pc` at its own address, the last one too. -/
theorem test_halt_stays :
    see (step (atPc 0 [0x01])) (fun t => (t.run, t.pc)) = some (.halted, 0) ∧
    see (step (atPc 255 [0x01])) (fun t => (t.run, t.pc)) = some (.halted, 255) := by decide
/-- V-DEC12: no step from a terminal state. -/
theorem test_no_step_after_halt : step State.reset.halt = .fault .halted ∧
    step (State.reset.raise (unrecognizedOpcode 0)) = .fault .faulted := ⟨rfl, rfl⟩
/-- V-CTL5's first step: CALL R7 jumps to the cell that holds the return address. -/
theorem test_call_r7 :
    see (step ((atPc 0 [0x50, 0x07]).setReg 7 0xFF)) (fun t => (t.pc, t.sp, t.mem.read 0xFE)) = some (0xFE, 0xFE, 2) := by
  decide
/-- V-CTL3 and V-CTL4: CALL at 254 faults RETADDR, but REG first. -/
theorem test_call_at_254 :
    see (step (atPc 254 [0x50, 0x01])) (fun t => (t.fault, t.mem.read 0xFE, t.pc))
      = some (some ⟨.outOfRange, 254, .range .retAddr 256⟩, 0x50, 254) ∧
    see (step (atPc 254 [0x50, 0x09])) (fun t => t.fault) = some (some ⟨.outOfRange, 254, .range .reg 9⟩) := by decide
/-- V-CTL17's RET at address 255: it needs no operand fetch. -/
theorem test_ret_at_255 :
    see (step (((atPc 255 [0x11]).setMem [(0xFE, 16), (255, 0x11)]).setReg 7 0xFE)) (fun t => (t.pc, t.sp))
      = some (16, 0xFF) := by decide
/-- V-CTL1's jump. -/
theorem test_jmp : see (step ((atPc 3 [0x54, 0x01]).setReg 1 6)) (fun t => t.pc) = some 6 := by decide
/-- V-CTL7, V-CTL8: JEQ taken and not taken. -/
theorem test_jeq :
    see (step (((atPc 0 [0x55, 0x01]).setReg 1 5).setFlags ⟨true, false, false⟩)) (fun t => t.pc) = some 5 ∧
    see (step (((atPc 0 [0x55, 0x01]).setReg 1 5).setFlags ⟨false, true, false⟩)) (fun t => t.pc) = some 2 := by
  decide
/-- V-CTL12, V-CTL13: the register is checked though the branch is not taken; not taken at 254 gives 256. -/
theorem test_jeq_not_taken_corners :
    see (step (atPc 0 [0x55, 0x09])) (fun t => t.fault) = some (some ⟨.outOfRange, 0, .range .reg 9⟩) ∧
    see (step (atPc 254 [0x55, 0x01])) (fun t => (t.run, t.pc)) = some (.running, 256) := by decide
/-- V-CTL9 to V-CTL11: JNE on Greater, on Equal and at reset flags. -/
theorem test_jne :
    see (step (((atPc 0 [0x56, 0x01]).setReg 1 5).setFlags ⟨false, false, true⟩)) (fun t => t.pc) = some 5 ∧
    see (step (((atPc 0 [0x56, 0x01]).setReg 1 5).setFlags ⟨true, false, false⟩)) (fun t => t.pc) = some 2 ∧
    see (step ((atPc 0 [0x56, 0x01]).setReg 1 5)) (fun t => t.pc) = some 5 := by decide
/-- V-CMP1, V-CMP2, V-CMP3: unsigned, and the old flags are cleared. -/
theorem test_cmp_unsigned :
    see (step ((((atPc 0 [0xA7, 0x00, 0x01]).setReg 0 7).setReg 1 7).setFlags ⟨false, false, true⟩)) (fun t => t.fl)
      = some ⟨true, false, false⟩ ∧
    see (step (((atPc 0 [0xA7, 0x00, 0x01]).setReg 0 0x80).setReg 1 0x7F)) (fun t => t.fl)
      = some ⟨false, false, true⟩ ∧
    see (step (((atPc 0 [0xA7, 0x00, 0x01]).setReg 0 0).setReg 1 0xFF)) (fun t => t.fl)
      = some ⟨false, true, false⟩ := by decide
/-- V-CMP5, V-CMP6: a faulting CMP keeps the flags; the order of the operands matters. -/
theorem test_cmp_corners :
    see (step ((atPc 0 [0xA7, 0x00, 0x09]).setFlags ⟨false, true, false⟩)) (fun t => (t.fl, t.fault))
      = some (⟨false, true, false⟩, some ⟨.outOfRange, 0, .range .reg 9⟩) ∧
    see (step (((atPc 0 [0xA7, 0x01, 0x00]).setReg 0 0).setReg 1 0xFF)) (fun t => t.fl)
      = some ⟨false, false, true⟩ := by decide

/-! ### Fetch, stack over code, construction, output -/

/-- V-DEC7's last step, V-DEC8, V-DEC9, V-DEC10: the fetch past the end of memory. -/
theorem test_fetch_past_the_end :
    see (step (atPc 256 [])) (fun t => t.fault) = some (some ⟨.outOfRange, 256, .range .fetch 256⟩) ∧
    see (step (atPc 255 [0x47])) (fun t => t.fault) = some (some ⟨.outOfRange, 255, .range .fetch 256⟩) ∧
    see (step (atPc 254 [0xA0, 0x00])) (fun t => t.fault) = some (some ⟨.outOfRange, 254, .range .fetch 256⟩) ∧
    see (step (atPc 255 [0x82])) (fun t => t.fault) = some (some ⟨.outOfRange, 255, .range .fetch 256⟩) := by decide
/-- V-DEC2: the empty image. -/
theorem test_empty_image :
    see (step State.reset) (fun t => (t.run, t.fault, t.pc)) =
      some (.faulted, some ⟨.unrecognizedOpcode, 0, .opcode 0⟩, 0) := by decide
/-- V-STK10: a push over its own operand byte uses the operand fetched (20_memory.md R75). -/
theorem test_push_over_own_operand :
    see (step (((atPc 0 [0x45, 0x00, 0x01]).setReg 0 0x55).setReg 7 2)) (fun t => (t.mem.read 1, t.reg 7, t.pc))
      = some (0x55, 1, 2) := by decide
/-- R44, R231: the image of P1, cells above it zero, and the images that are refused. -/
theorem test_construct :
    (construct [0x82, 0, 8, 0x47, 0, 1] 0x80).map (fun s => (s.mem.read 2, s.mem.read 6, s.sp, s.reg 0, s.pc))
      = some (8, 0, 0x80, 0, 0) ∧
    construct [256] 0 = none := by decide
theorem test_construct_refuses_257 : construct (List.replicate 257 0) 0 = none :=
  if_neg fun h => absurd h.1 (by rw [List.length_replicate]; decide)
/-- W9. -/
theorem test_render :
    renderOut [0, 8, 255, 42] = ["decimal: 0", "decimal: 8", "decimal: 255", "decimal: 42"] := by decide

/-- 30_encoding.md R90, and the spellings of W1, W2, P4 and P5. -/
theorem test_assembly :
    assemblyText (.ldi 0 8) = "LDI R0, 8" ∧ assemblyText (.mul 0 1) = "MUL R0, R1" ∧
    assemblyText (.call 1) = "CALL R1" ∧ assemblyText .halt = "HALT" ∧ assemblyText (.jne 4) = "JNE R4" := by decide

/-! ### Witnesses: a state and operands that meet the hypotheses of each statement that has some -/

theorem test_witness_ldi :
    8 ≤ (8#8).toNat ∧ Fetches (atPc 254 [0x82, 0]) 0x82 ∧ (atPc 254 [0x82, 0]).pc ∈ [254, 255] ∧
    Fetches (atPc 255 [0x82]) 0x82 ∧ (atPc 255 [0x82]).pc ∈ [254, 255] := by decide
theorem test_witness_add :
    8 ≤ (8#8).toNat ∧ Fetches (atPc 254 [0xA0, 0]) 0xA0 ∧ (atPc 254 [0xA0, 0]).pc ∈ [254, 255] ∧
    Fetches (atPc 255 [0xA0]) 0xA0 ∧ (atPc 255 [0xA0]).pc ∈ [254, 255] := by decide
theorem test_witness_mul :
    8 ≤ (8#8).toNat ∧ Fetches (atPc 254 [0xA2, 0]) 0xA2 ∧ (atPc 254 [0xA2, 0]).pc ∈ [254, 255] ∧
    Fetches (atPc 255 [0xA2]) 0xA2 ∧ (atPc 255 [0xA2]).pc ∈ [254, 255] := by decide
theorem test_witness_cmp :
    8 ≤ (8#8).toNat ∧ Fetches (atPc 254 [0xA7, 0]) 0xA7 ∧ (atPc 254 [0xA7, 0]).pc ∈ [254, 255] ∧
    Fetches (atPc 255 [0xA7]) 0xA7 ∧ (atPc 255 [0xA7]).pc ∈ [254, 255] := by decide
theorem test_witness_prn :
    8 ≤ (8#8).toNat ∧ Fetches (atPc 255 [0x47]) 0x47 ∧ (atPc 255 [0x47]).pc ∈ [255] := by decide
theorem test_witness_jmp :
    8 ≤ (8#8).toNat ∧ Fetches (atPc 255 [0x54]) 0x54 ∧ (atPc 255 [0x54]).pc ∈ [255] := by decide
theorem test_witness_push :
    8 ≤ (8#8).toNat ∧ (atPc 0 [0x45, 0]).mem.wf ∧ Fetches (atPc 255 [0x45]) 0x45 ∧ (atPc 255 [0x45]).pc ∈ [255] := by decide
theorem test_witness_pop :
    8 ≤ (8#8).toNat ∧ (6 : RegIdx) ≠ spIdx ∧ (7 : RegIdx) = spIdx ∧ Fetches (atPc 255 [0x46]) 0x46 ∧
    (atPc 255 [0x46]).pc ∈ [255] := by decide
theorem test_witness_call :
    8 ≤ (8#8).toNat ∧ (atPc 253 [0x50, 0]).pc + 2 ≤ 255 ∧ (atPc 253 [0x50, 0]).mem.wf ∧
    255 < (atPc 254 [0x50, 0]).pc + 2 ∧ Fetches (atPc 255 [0x50]) 0x50 ∧ (atPc 255 [0x50]).pc ∈ [255] := by decide
theorem test_witness_ret :
    Fetches (atPc 255 [0x11]) 0x11 := by decide
theorem test_witness_jeq :
    8 ≤ (8#8).toNat ∧ (State.reset.setFlags ⟨true, false, false⟩).fl.e = true ∧ State.reset.fl.e = false ∧
    Fetches (atPc 255 [0x55]) 0x55 ∧ (atPc 255 [0x55]).pc ∈ [255] := by decide
theorem test_witness_jne :
    8 ≤ (8#8).toNat ∧ (State.reset.setFlags ⟨true, false, false⟩).fl.e = true ∧ State.reset.fl.e = false ∧
    Fetches (atPc 255 [0x56]) 0x56 ∧ (atPc 255 [0x56]).pc ∈ [255] := by decide
theorem test_witness_halt :
    Fetches (atPc 255 [0x01]) 0x01 ∧ (∃ t, exec .halt State.reset = .next t) ∧
    (atPc 256 []).run = .running ∧ (atPc 256 []).pc = 256 := ⟨by decide, ⟨_, rfl⟩, by decide⟩
theorem test_witness_encode_inverts_decode :
    decode [0xA0, 0xFF, 0x07, 0x01] = .ok (.add 0xFF 7, [0x01]) := by decide
theorem test_witness_descriptors :
    decodeOpcode 0x50 = some ⟨.call, 2, true⟩ := by decide
theorem test_witness_step_runs_decoded :
    (atPc 253 [0x82, 0, 8]).run = .running ∧
    decode ((atPc 253 [0x82, 0, 8]).bytesFrom (atPc 253 [0x82, 0, 8]).pc) = .ok (.ldi 0 8, []) := by decide
theorem test_witness_step_faults :
    (atPc 256 []).run = .running ∧ decode ((atPc 256 []).bytesFrom 256) = .error .noBytes ∧
    decode ((atPc 255 [0xFF]).bytesFrom 255) = .error (.unrecognizedOpcode 0xFF) ∧
    decode ((atPc 255 [0x47]).bytesFrom 255) = .error (.missingOperand 1) ∧
    decode ((atPc 254 [0x82, 0]).bytesFrom 254) = .error (.missingOperand 2) := by decide
theorem test_witness_undefined_opcodes :
    Fetches (atPc 255 [0xA1]) 0xA1 ∧ (0xA1 : Byte) ∉ definedOpcodes := by decide
theorem test_witness_check_order :
    (atPc 254 [0x50, 0x09]).run = .running ∧ (atPc 254 [0x50, 0x09]).mem.read 254 = 0x50 ∧
    (atPc 254 [0x50, 0x09]).mem.read (254 + 1) = 0x09 ∧ (atPc 254 [0x50, 0x09]).mem.read (254 + 2) = 0 := by decide
theorem test_witness_register_operands :
    8 ≤ (8#8).toNat ∧ (7#8).toNat < 8 ∧
    Instr.jeq 8 ∈ [Instr.prn 8, .push 8, .pop 8, .call 8, .jmp 8, .jeq 8, .jne 8] ∧
    Instr.cmp 7 8 ∈ [Instr.add 7 8, .mul 7 8, .cmp 7 8] := by decide
theorem test_witness_wellFormed_executes :
    (Instr.call 7).WellFormed ∧ ∀ r, Instr.call 7 = .call r → (atPc 253 [0x50, 7]).pc + 2 ≤ 255 := ⟨by decide, fun _ _ => by decide⟩
theorem test_witness_faults_precise :
    ∃ t, step State.reset = .next t ∧ t.run = .faulted := ⟨_, rfl, rfl⟩
theorem test_witness_run_state :
    (∃ s, construct [0x01] 0 = some s) ∧ ∃ t, step (atPc 0 [0x01]) = .next t ∧ t.run = .halted := ⟨⟨_, rfl⟩, _, rfl, rfl⟩
theorem test_witness_reserved_causes :
    ∃ t, step (atPc 254 [0x50, 0]) = .next t ∧ t.fault ≠ none := ⟨_, rfl, by decide⟩
theorem test_witness_flags_written :
    ∃ t, step (atPc 0 [0xA7, 0, 0]) = .next t ∧ t.fl ≠ (atPc 0 [0xA7, 0, 0]).fl := ⟨_, rfl, by decide⟩
theorem test_witness_flags_read :
    (∃ t, step (atPc 0 [0xA7, 0, 0]) = .next t ∧ (atPc 0 [0xA7, 0, 0]).mem.read 0 ∉ [0x55, 0x56]) ∧
    ∃ t, step (atPc 0 [0x55, 0]) = .next t ∧ (Flags.mk false true false).e = (atPc 0 [0x55, 0]).fl.e := ⟨⟨_, rfl, by decide⟩, _, rfl, by decide⟩
theorem test_witness_memory_writers :
    (∃ t, step (atPc 0 [0x45, 7]) = .next t ∧ t.mem.read 0xFE ≠ (atPc 0 [0x45, 7]).mem.read 0xFE) ∧
    ∃ t, step (atPc 0 [0x11]) = .next t ∧ (atPc 0 [0x11]).mem.read 0 ∉ [0x45, 0x50] := ⟨⟨_, rfl, by decide⟩, _, rfl, by decide⟩
theorem test_witness_output_grows :
    (∃ s, construct [] 0 = some s) ∧ ∃ t, step (atPc 0 [0x47, 7]) = .next t ∧ t.out ≠ [] := ⟨⟨_, rfl⟩, _, rfl, by decide⟩
theorem test_witness_output_never_read :
    ∃ t, step (atPc 0 [0x47, 7]) = .next t := ⟨_, rfl⟩
theorem test_witness_registers_written :
    (∃ t, step (atPc 0 [0x82, 3, 9]) = .next t ∧ t.reg 3 ≠ (atPc 0 [0x82, 3, 9]).reg 3) ∧
    ∃ t, step (atPc 0 [0x11]) = .next t ∧ t.reg 7 ≠ (atPc 0 [0x11]).reg 7 := ⟨⟨_, rfl, by decide⟩, _, rfl, by decide⟩
theorem test_witness_pc_256 :
    ∃ t, (atPc 254 [0x47, 0]).pc ≤ 256 ∧ step (atPc 254 [0x47, 0]) = .next t ∧ t.pc = 256 := ⟨_, by decide, rfl, by decide⟩
theorem test_witness_stack_statements :
    (atPc 253 [0x50, 1]).mem.wf ∧ (atPc 253 [0x50, 1]).pc + 2 ≤ 255 ∧
    ∃ t, exec (.call (regByte 1)) (atPc 253 [0x50, 1]) = .next t ∧ t.sp = t.sp ∧
      t.mem.read t.sp.toNat = t.mem.read t.sp.toNat := ⟨by decide, by decide, _, rfl, rfl, rfl⟩
theorem test_witness_memory_accesses :
    (255 : Nat) ≤ 255 ∧ (atPc 255 [0x01]).mem.wf ∧ (255 : Nat) < 256 ∧ (0 : Nat) ≠ 255 := by decide
theorem test_witness_equal_memories :
    Memory.wf [(0, 1), (255, 2)] ∧ ∀ a, a ≤ 255 → Memory.read [(0, 1), (255, 2)] a = Memory.read [(0, 1), (255, 2)] a := ⟨by decide, fun _ _ => rfl⟩
theorem test_witness_compare :
    (5#8).toNat = (5#8).toNat ∧ (0#8).toNat < (255#8).toNat ∧ (0x7F#8).toNat < (0x80#8).toNat := by decide
theorem test_witness_output_lines :
    (decimalDigits 0).head? = some 0 := by decide
theorem test_witness_construction :
    ([0x82, 255] : List Nat).length ≤ 256 ∧ (∀ v ∈ [0x82, 255], v ≤ 255) ∧ ([0x82, 255] : List Nat)[1]? = some 255 ∧
    ([0x82, 255] : List Nat).length ≤ 2 ∧ (6 : RegIdx) ≠ spIdx ∧ 256 < (List.replicate 257 0).length ∧
    ∃ v ∈ [256], 255 < v := ⟨by decide, by decide, by decide, by decide, by decide, by rw [List.length_replicate]; decide, by decide⟩
theorem test_witness_construction_full_image :
    (List.replicate 256 255).length ≤ 256 ∧ (∀ v ∈ List.replicate 256 255, v ≤ 255) ∧
    (List.replicate 256 255)[255]? = some 255 ∧ ([] : List Nat).length ≤ 255 ∧ 255 ≤ 255 := ⟨by rw [List.length_replicate], fun _ h => (List.eq_of_mem_replicate h).le, by rw [List.getElem?_replicate, if_pos (by decide)], by decide, by decide⟩
theorem test_witness_runs :
    State.reset.halt.run ≠ .running ∧ State.reset.run = .running ∧ Reachable [] Config.spReset State.reset := ⟨by decide, by decide, .start _ (by decide)⟩
theorem test_witness_placed_word :
    (atPc 253 []).mem.wf ∧ (atPc 253 []).run = .running ∧ (atPc 253 []).pc ≤ 253 ∧
    decodeTableWord 24 0x080082 = some (.ldi 0 8) := by decide
theorem test_witness_invariant_step :
    State.reset.Inv ∧ ∃ t, step State.reset = .next t := ⟨by decide, _, rfl⟩
theorem test_witness_constructed_invariant :
    ∃ s, construct [0x01] 0x80 = some s := ⟨_, rfl⟩
theorem test_witness_reachable :
    Reachable [] Config.spReset State.reset ∧ State.reset.run ≠ .faulted := ⟨.start _ (by decide), by decide⟩

end Sys2Proof.Tests
end

section
/-! SUPPORT. A step as an effect: the cases of `step_next_cases` and `exec_cases` in one lemma, and what an effect does
to the run state and to the output. -/

namespace Sys2Proof.Machine

/-- Where an instruction answers a next state, it took a fault or had its effect. -/
theorem exec_next_cases {i : Instr} {s t : State} (h : exec i s = .next t) :
    (∃ e, t = s.raise e) ∨ Effect i s t := by
  rcases exec_cases i s with ⟨b, -, hb⟩ | ⟨r, -, -, hr⟩ | ⟨-, u, hu, hi⟩
  · exact .inl ⟨_, Host.Outcome.next.inj (h.symm.trans hb)⟩
  · exact .inl ⟨_, Host.Outcome.next.inj (h.symm.trans hr)⟩
  · obtain rfl := Host.Outcome.next.inj (h.symm.trans hi)
    exact .inr hu

/-- Where a step answers a next state, the machine was running, and the step is fault entry or the effect of the
instruction fetched. -/
theorem step_next_effect {s t : State} (h : step s = .next t) :
    s.run = .running ∧ ((∃ e, t = s.raise e) ∨ ∃ i, s.fetchInstr = .ok i ∧ Effect i s t) := by
  obtain ⟨hrun, ⟨e, -, ht⟩ | ⟨i, hi, hexec⟩⟩ := step_next_cases h
  · exact ⟨hrun, .inl ⟨e, ht⟩⟩
  · exact ⟨hrun, (exec_next_cases hexec).imp_right fun he => ⟨i, hi, he⟩⟩

/-- Only HALT changes the run state without a fault (10_state.md R38). -/
theorem Effect.run_eq {i : Instr} {s t : State} (h : Effect i s t) :
    t.run = if i = .halt then .halted else s.run := by
  cases i with
  | halt | ret => obtain rfl := h; rfl
  | ldi | prn | push | pop | jmp | jeq | jne => obtain ⟨_, _, rfl⟩ := h; rfl
  | call => obtain ⟨_, _, _, rfl⟩ := h; rfl
  | mul | add | cmp => obtain ⟨_, _, _, _, rfl⟩ := h; rfl

/-- Only PRN changes the output: it appends the register its operand names (10_state.md R41). -/
theorem Effect.out_cases {i : Instr} {s t : State} (h : Effect i s t) :
    t.out = s.out ∨ ∃ r, i = .prn (regByte r) ∧ t.out = s.out ++ [s.reg r] := by
  cases i with
  | prn => obtain ⟨r, rfl, rfl⟩ := h; exact .inr ⟨r, rfl, rfl⟩
  | halt | ret => obtain rfl := h; exact .inl rfl
  | ldi | push | pop | jmp | jeq | jne => obtain ⟨_, _, rfl⟩ := h; exact .inl rfl
  | call => obtain ⟨_, _, _, rfl⟩ := h; exact .inl rfl
  | mul | add | cmp => obtain ⟨_, _, _, _, rfl⟩ := h; exact .inl rfl

end Sys2Proof.Machine
end

section
/-! SUPPORT. Construction: from which images a core is constructed, and what its memory and registers hold. -/

namespace Sys2Proof.Machine

/-- The core constructed from an acceptable image. -/
theorem construct_of_imageOk {image : List Nat} (h : ImageOk image) (spReset : Byte) :
    construct image spReset =
      some ((State.reset.setReg spIdx spReset).setMem (Memory.place [] 0 (image.map (BitVec.ofNat 8)))) :=
  if_pos h

/-- No core is constructed from an image that is not acceptable (70_reset_and_hazards.md R231, D17). -/
theorem construct_of_not_imageOk {image : List Nat} (h : ¬ ImageOk image) (spReset : Byte) :
    construct image spReset = none :=
  if_neg h

theorem not_imageOk {image : List Nat} : ¬ ImageOk image ↔ 256 < image.length ∨ ∃ v ∈ image, 255 < v := by
  rw [ImageOk, not_and_or]
  push Not
  rfl

/-- The memory of an acceptable image holds each of its values, from address 0 upward. -/
theorem read_place_image {image : List Nat} (h : ImageOk image) {k v : Nat} (hk : image[k]? = some v) :
    ((Memory.place [] 0 (image.map (BitVec.ofNat 8))).read k).toNat = v := by
  obtain ⟨hlen, hval⟩ := h
  obtain ⟨hlt, rfl⟩ := List.getElem?_eq_some_iff.1 hk
  have hread := Memory.read_place_inside (m := []) (by decide) 0 (image.map (BitVec.ofNat 8)) (k := k)
    (by simpa using hlt) (by omega)
  have hv : image[k] ≤ 255 := hval _ (List.getElem_mem hlt)
  rw [Nat.zero_add] at hread
  rw [hread, List.getElem_map, BitVec.toNat_ofNat]
  omega

/-- The memory of an image reads 0 beyond the image (10_state.md R44). -/
theorem read_place_beyond_image {image : List Nat} {a : Nat} (h : image.length ≤ a) :
    (Memory.place [] 0 (image.map (BitVec.ofNat 8))).read a = 0 :=
  Memory.read_place_outside [] 0 _ (.inr (by simpa using h))

/-- R0 to R6 hold 0 at reset (10_state.md R44, D5). -/
theorem State.reset_reg {i : RegIdx} (h : i ≠ spIdx) : State.reset.reg i = 0 := by
  revert i; decide

end Sys2Proof.Machine
end

section
/-! The statements of the family of 10_state.md. -/

namespace Sys2Proof.Proofs

open Sys2Proof.Machine

/-- Settles O26: a constructed core is the reset state in its run state, and a step is fault entry or the effect of an
instruction, of which only HALT writes the run state; its opcode byte is the one at `pc`. -/
theorem runStateEndsOnlyByHaltOrFault : Obligations.RunStateEndsOnlyByHaltOrFault := by
  unfold Obligations.RunStateEndsOnlyByHaltOrFault
  refine ⟨fun image spReset s h => ?_, fun s t h => ?_⟩
  · obtain ⟨-, rfl⟩ := construct_eq_some h
    rfl
  · obtain ⟨hrun, ⟨e, rfl⟩ | ⟨i, hi, he⟩⟩ := step_next_effect h
    · exact ⟨hrun, .inr (.inr ⟨s.raise_run e, e, rfl⟩)⟩
    · refine ⟨hrun, ?_⟩
      have ht := he.run_eq
      by_cases hhalt : i = .halt
      · subst hhalt
        obtain ⟨hop, hpc, -⟩ := State.fetchInstr_ok hi
        exact .inr (.inl ⟨ht, by omega, hop⟩)
      · exact .inl (by rw [ht, if_neg hhalt, hrun])

/-- Settles O31: a constructed core has the output of the reset state; fault entry keeps the output, and of the effects
only PRN's changes it, whose opcode and operand byte lie at `pc`. -/
theorem outputGrowsOnlyByPrn : Obligations.OutputGrowsOnlyByPrn := by
  unfold Obligations.OutputGrowsOnlyByPrn
  refine ⟨fun image spReset s h => ?_, fun i s => ⟨_, exec_prn i s, rfl⟩, fun s t h => ?_⟩
  · obtain ⟨-, rfl⟩ := construct_eq_some h
    rfl
  · obtain ⟨-, ⟨e, rfl⟩ | ⟨i, hi, he⟩⟩ := step_next_effect h
    · exact .inl (s.raise_out e)
    · refine he.out_cases.imp_right ?_
      rintro ⟨r, rfl, hout⟩
      obtain ⟨hop, -, hoperands⟩ := State.fetchInstr_ok hi
      exact ⟨hop, r, hoperands 0 (by simp [Instr.operands]), hout⟩

/-- Settles O44: `construct` lays an acceptable image over the reset state with R7 at `SP_RESET`, and the images of the
second clause are those that are not acceptable. -/
theorem constructionLaysOutTheImage : Obligations.ConstructionLaysOutTheImage := by
  unfold Obligations.ConstructionLaysOutTheImage
  refine ⟨fun image spReset hlen hval => ?_, fun image spReset h => ?_⟩
  · have hok : ImageOk image := ⟨hlen, hval⟩
    refine ⟨_, construct_of_imageOk hok spReset, fun k v => read_place_image hok,
      fun a ha _ => read_place_beyond_image ha, fun i hi => ?_, ?_, rfl, rfl, rfl, rfl, rfl⟩
    · rw [State.setMem_reg, State.setReg_reg_other _ _ hi, State.reset_reg hi]
    · rw [State.setMem_sp, State.sp_eq_reg, State.setReg_reg_same]
  · exact construct_of_not_imageOk (not_imageOk.2 h) spReset

end Sys2Proof.Proofs
end

section
/-! SUPPORT. What an effect and a step do to memory (20_memory.md R63). -/

namespace Sys2Proof.Machine

/-- Only PUSH and CALL change memory without a fault: they write one cell, at the decremented stack pointer. -/
theorem Effect.mem_cases {i : Instr} {s t : State} (h : Effect i s t) :
    t.mem = s.mem ∨ (i.opcode = .push ∨ i.opcode = .call) ∧ ∃ v, t.mem = s.mem.write s.decSp.sp.toNat v := by
  rw [State.decSp_sp]
  cases i with
  | push => obtain ⟨_, _, rfl⟩ := h; exact .inr ⟨.inl rfl, _, rfl⟩
  | call => obtain ⟨_, _, _, rfl⟩ := h; exact .inr ⟨.inr rfl, _, rfl⟩
  | halt | ret => obtain rfl := h; exact .inl rfl
  | ldi | prn | pop | jmp | jeq | jne => obtain ⟨_, _, rfl⟩ := h; exact .inl rfl
  | mul | add | cmp => obtain ⟨_, _, _, _, rfl⟩ := h; exact .inl rfl

/-- A step keeps the memory array, or the opcode at `pc` is that of PUSH or CALL and the step writes one cell, at the
decremented stack pointer. -/
theorem step_mem_cases {s t : State} (h : step s = .next t) :
    t.mem = s.mem ∨ s.mem.read s.pc ∈ [0x45, 0x50] ∧ ∃ v, t.mem = s.mem.write s.decSp.sp.toNat v := by
  obtain ⟨-, ⟨e, rfl⟩ | ⟨i, hi, he⟩⟩ := step_next_effect h
  · exact .inl (s.raise_mem e)
  · refine he.mem_cases.imp_right fun ⟨hop, hv⟩ => ⟨?_, hv⟩
    rw [(State.fetchInstr_ok hi).1]
    rcases hop with hop | hop <;> rw [hop] <;> decide

end Sys2Proof.Machine
end

section
/-! The statement of the family of 20_memory.md. -/

namespace Sys2Proof.Proofs

open Sys2Proof.Machine

/-- Settles O30: a step keeps the memory array or, under one of the two opcodes, writes the cell at the decremented
stack pointer, and a write leaves every other address alone. -/
theorem onlyPushAndCallWriteMemory : Obligations.OnlyPushAndCallWriteMemory := by
  unfold Obligations.OnlyPushAndCallWriteMemory
  intro s t h
  rcases step_mem_cases h with hmem | ⟨hop, v, hmem⟩
  · exact ⟨fun a ha => absurd (by rw [hmem]) ha, fun _ => hmem⟩
  · refine ⟨fun a ha => ⟨hop, ?_⟩, fun hno => absurd hop hno⟩
    by_contra hne
    exact ha (by rw [hmem, Memory.read_write_other _ _ hne])

end Sys2Proof.Proofs
end

section
/-! SUPPORT. Where a step answers a next state and where it stops (40_fetch_execute.md R100). -/

namespace Sys2Proof.Machine

/-- Executing an instruction always answers a next state: its effect or fault entry. -/
theorem exec_answers_next (i : Instr) (s : State) : ∃ t, exec i s = .next t := by
  rcases exec_cases i s with ⟨b, -, hbad⟩ | ⟨r, -, -, hfar⟩ | ⟨-, t, -, ht⟩
  · exact ⟨_, hbad⟩
  · exact ⟨_, hfar⟩
  · exact ⟨t, ht⟩

/-- A running machine always has a next state. -/
theorem step_answers_next {s : State} (h : s.run = .running) : ∃ t, step s = .next t := by
  rw [step_running h]
  cases s.fetchInstr with
  | error e => exact ⟨s.raise e, rfl⟩
  | ok i => exact exec_answers_next i s

/-- A machine that is not running stops (log entry 3): its step is a fault, neither a next state nor a refusal. -/
theorem step_stops {s : State} (h : s.run ≠ .running) : ∃ f, step s = .fault f := by
  cases hr : s.run with
  | running => exact absurd hr h
  | halted => exact ⟨.halted, by rw [step, hr]⟩
  | faulted => exact ⟨.faulted, by rw [step, hr]⟩

end Sys2Proof.Machine
end

section
/-! The statement of the family of 40_fetch_execute.md. -/

namespace Sys2Proof.Proofs

open Sys2Proof.Machine

/-- Settles O24: a next state comes from a running machine only, a running machine has one, and any other machine
stops with a fault, so no state is answered by a refusal. -/
theorem stepExistsExactlyWhileRunning : Obligations.StepExistsExactlyWhileRunning := by
  unfold Obligations.StepExistsExactlyWhileRunning
  refine fun s => ⟨⟨fun ⟨_, ht⟩ => (step_next_cases ht).1, step_answers_next⟩, fun r hr => ?_⟩
  by_cases hrun : s.run = .running
  · obtain ⟨t, ht⟩ := step_answers_next hrun
    exact nomatch ht.symm.trans hr
  · obtain ⟨f, hf⟩ := step_stops hrun
    exact nomatch hf.symm.trans hr

end Sys2Proof.Proofs
end

section
/-! SUPPORT. The decoder on the bytes of an instruction with one or two operands, and the fault of an instruction whose
operands do not all lie inside memory (40_fetch_execute.md R103, R104). -/

namespace Sys2Proof

theorem decode_one_operand {o : Opcode} (h : operandCount o.byte = 1) (b : Byte) (rest : List Byte) :
    decode (o.byte :: b :: rest) = .ok (assemble o b 0, rest) := by
  simp [decode, instrLen, h, operandBytes]

theorem decode_two_operands {o : Opcode} (h : operandCount o.byte = 2) (b c : Byte) (rest : List Byte) :
    decode (o.byte :: b :: c :: rest) = .ok (assemble o b c, rest) := by
  simp [decode, instrLen, h, operandBytes]

end Sys2Proof

namespace Sys2Proof.Machine

/-- The fetch of a defined opcode whose operands reach past address 255 raises OutOfRange(FETCH, 256): it cannot answer
an instruction, and of the faults of a fetch the other two need a `pc` past 255 or an opcode outside the map. -/
theorem State.fetchInstr_past_end {s : State} {o : Opcode} (hop : s.mem.read s.pc = o.byte) (hpc : s.pc ≤ 255)
    (hend : 255 < s.pc + operandCount o.byte) : s.fetchInstr = .error (outOfRange .fetch 256) := by
  cases hf : s.fetchInstr with
  | ok i =>
    obtain ⟨hi, hlen, -⟩ := State.fetchInstr_ok hf
    rw [← operandCount_opcode, ← hi, hop] at hlen
    omega
  | error e =>
    rcases State.fetchInstr_error hf with ⟨hlt, -⟩ | ⟨-, hnone, -⟩ | ⟨-, -, -, rfl⟩
    · omega
    · rw [hop, opcodeOf_byte] at hnone
      exact nomatch hnone
    · rfl

theorem faultsPastEnd {o : Opcode} {ps : List Nat} (h : ∀ p ∈ ps, 255 < p + operandCount o.byte) :
    FaultsPastEnd o.byte ps := by
  rintro s ⟨hrun, hpc, hop⟩ hmem
  rw [Raises, step_running hrun, State.fetchInstr_past_end hop hpc (h _ hmem)]

end Sys2Proof.Machine
end

section
/-! SUPPORT. The decimal digits of a byte (41_data_movement.md R122). -/

namespace Sys2Proof.Machine

/-- A byte has one, two or three decimal digits, according to its size. -/
theorem decimalDigits_cases (v : Byte) :
    (v.toNat < 10 ∧ decimalDigits v = [v.toNat]) ∨
    (10 ≤ v.toNat ∧ v.toNat < 100 ∧ decimalDigits v = [v.toNat / 10, v.toNat % 10]) ∨
    (100 ≤ v.toNat ∧ decimalDigits v = [v.toNat / 100, v.toNat / 10 % 10, v.toNat % 10]) := by
  unfold decimalDigits
  by_cases h10 : v.toNat < 10
  · exact .inl ⟨h10, if_pos h10⟩
  · rw [if_neg h10]
    by_cases h100 : v.toNat < 100
    · exact .inr (.inl ⟨by omega, h100, if_pos h100⟩)
    · exact .inr (.inr ⟨by omega, if_neg h100⟩)

theorem decimalDigits_value (v : Byte) : (decimalDigits v).foldl (fun n d => 10 * n + d) 0 = v.toNat := by
  rcases decimalDigits_cases v with ⟨-, hds⟩ | ⟨-, -, hds⟩ | ⟨-, hds⟩ <;>
  · simp only [hds, List.foldl_cons, List.foldl_nil]
    omega

theorem decimalDigits_le_nine (v : Byte) : ∀ d ∈ decimalDigits v, d ≤ 9 := by
  have hv := v.isLt
  rcases decimalDigits_cases v with ⟨_, hds⟩ | ⟨_, _, hds⟩ | ⟨_, hds⟩ <;>
  · simp only [hds, List.forall_mem_cons, List.not_mem_nil, false_implies, implies_true, and_true]
    omega

theorem decimalDigits_ne_nil (v : Byte) : decimalDigits v ≠ [] := by
  rcases decimalDigits_cases v with ⟨-, hds⟩ | ⟨-, -, hds⟩ | ⟨-, hds⟩ <;> simp [hds]

/-- No leading zero: the first digit of a byte of two or three digits is at least 1. -/
theorem decimalDigits_head_zero {v : Byte} (h : (decimalDigits v).head? = some 0) : decimalDigits v = [0] := by
  rcases decimalDigits_cases v with ⟨_, hds⟩ | ⟨_, _, hds⟩ | ⟨_, hds⟩ <;>
    rw [hds, List.head?_cons, Option.some.injEq] at h
  · rw [hds, h]
  · omega
  · omega

end Sys2Proof.Machine
end

section
/-! The statements of the family of 41_data_movement.md. -/

namespace Sys2Proof.Proofs

open Sys2Proof.Machine

/-- Settles O1: the bytes decode by the opcode map, `exec_ldi` gives the next state, which differs in one register and
`pc`, a bad register faults before the handler, and at 254 and 255 the two operands do not fit. -/
theorem ldiLoadsTheImmediate : Obligations.LdiLoadsTheImmediate := by
  unfold Obligations.LdiLoadsTheImmediate
  refine ⟨decodeOpcode_byte .ldi, decode_two_operands (o := .ldi) (by decide), fun i imm s => ?_,
    fun r imm s h => settle_withReg_bad _ h s _, faultsPastEnd (o := .ldi) (by decide)⟩
  refine ⟨_, exec_ldi i imm s, ?_, rfl, keepsAllBut_setReg_setPc s i imm _⟩
  rw [State.setPc_reg, State.setReg_reg_same]

/-- Settles O2: the bytes decode by the opcode map, `exec_prn` gives the next state, whose other fields no update
touches, a bad register faults before the handler, and at 255 the operand does not fit. -/
theorem prnAppendsTheRegister : Obligations.PrnAppendsTheRegister := by
  unfold Obligations.PrnAppendsTheRegister
  exact ⟨decodeOpcode_byte .prn, decode_one_operand (o := .prn) (by decide),
    fun i s => ⟨_, exec_prn i s, rfl, rfl, fun _ _ => rfl, fun _ _ => rfl, rfl, rfl, rfl⟩,
    fun r s h => settle_withReg_bad _ h s _, faultsPastEnd (o := .prn) (by decide)⟩

/-- Settles O42: the digits of a line are `decimalDigits`, whose value, range and first digit follow from the three
sizes of a byte; the lines of a stream are a `List.map`. -/
theorem outputLinesAreDecimal : Obligations.OutputLinesAreDecimal := by
  unfold Obligations.OutputLinesAreDecimal
  refine ⟨fun v => ⟨decimalDigits v, rfl, decimalDigits_value v, decimalDigits_le_nine v, decimalDigits_ne_nil v,
    decimalDigits_head_zero⟩, by decide, fun out out' => ?_, fun _ => rfl⟩
  exact List.map_append

end Sys2Proof.Proofs
end

section
/-! SUPPORT. The ALU's three results (42_arithmetic.md R130), the fault of a second register operand that does not exist
(40_fetch_execute.md R105), and what a register write leaves in that register once `pc` has moved on. -/

namespace Sys2Proof.Machine

theorem aluAdd_toNat (a b : Byte) : (aluAdd a b).toNat = (a.toNat + b.toNat) % 256 := by
  rw [aluAdd_eq, BitVec.toNat_add]

theorem aluMul_toNat (a b : Byte) : (aluMul a b).toNat = (a.toNat * b.toNat) % 256 := by
  rw [aluMul_eq, BitVec.toNat_mul]

/-- The comparison's flags are the three relations of the unsigned order: one case for each flag that can be set. -/
theorem compareFlags_eq_order (a b : Byte) :
    compareFlags a b = ⟨decide (a.toNat = b.toNat), decide (a.toNat < b.toNat), decide (b.toNat < a.toNat)⟩ := by
  unfold compareFlags Flags.clear
  rcases Nat.lt_trichotomy a.toNat b.toNat with h | h | h
  · simp [h, h.ne, h.not_gt]
  · simp [h]
  · simp [h, h.ne', h.not_gt]

/-- The second of two register operands is bad and the first is not: OutOfRange(REG) with the second one. -/
theorem settle_withReg_second_bad (o : Opcode) (i : RegIdx) {b : Byte} (h : 8 ≤ b.toNat) (s : State)
    (k : RegIdx → RegIdx → Except FaultEvent State) :
    settle o s (withReg (regByte i) fun i => withReg b (k i)) = .next (s.raise (outOfRange .reg b.toNat)) := by
  rw [withReg_regByte, settle_withReg_bad o h]

theorem State.setReg_setPc_reg_same (s : State) (i : RegIdx) (v : Byte) (p : Nat) :
    ((s.setReg i v).setPc p).reg i = v := by
  rw [State.setPc_reg, State.setReg_reg_same]

end Sys2Proof.Machine
end

section
/-! The statements of the family of 42_arithmetic.md. -/

namespace Sys2Proof.Proofs

open Sys2Proof.Machine

/-- Settles O3: the bytes decode by the opcode map, `exec_add` gives the next state, which differs in one register and
`pc`, each operand check faults before the handler, and at 254 and 255 the two operands do not fit. -/
theorem addWrapsModulo256 : Obligations.AddWrapsModulo256 := by
  unfold Obligations.AddWrapsModulo256
  refine ⟨decodeOpcode_byte .add, decode_two_operands (o := .add) (by decide), fun i j s => ?_,
    fun a b s h => settle_withReg_bad _ h s _, fun i b s h => settle_withReg_second_bad _ i h s _,
    faultsPastEnd (o := .add) (by decide)⟩
  refine ⟨_, exec_add i j s, ?_, rfl, keepsAllBut_setReg_setPc s i _ _⟩
  rw [State.setReg_setPc_reg_same, BitVec.toNat_add]

/-- Settles O4: as O3, by `exec_mul`; the product's high byte has no place in the next state, which differs in one
register and `pc` only. -/
theorem mulKeepsTheLowByte : Obligations.MulKeepsTheLowByte := by
  unfold Obligations.MulKeepsTheLowByte
  refine ⟨decodeOpcode_byte .mul, decode_two_operands (o := .mul) (by decide), fun i j s => ?_,
    fun a b s h => settle_withReg_bad _ h s _, fun i b s h => settle_withReg_second_bad _ i h s _,
    faultsPastEnd (o := .mul) (by decide)⟩
  refine ⟨_, exec_mul i j s, ?_, rfl, keepsAllBut_setReg_setPc s i _ _⟩
  rw [State.setReg_setPc_reg_same, BitVec.toNat_mul]

/-- Settles O40: the ALU's sum, product and comparison are those of the bytes' values, and bit 5 of an opcode byte is
read off the 13 rows of the map. -/
theorem aluOperationsAreExactModulo256 : Obligations.AluOperationsAreExactModulo256 := by
  unfold Obligations.AluOperationsAreExactModulo256
  refine ⟨fun a b => ⟨aluAdd_toNat a b, aluMul_toNat a b, compareFlags_eq_order a b⟩, fun o => ?_⟩
  cases o <;> decide

end Sys2Proof.Proofs
end

section
/-! SUPPORT. The moved stack pointer as a number (20_memory.md R69), and what is read back after the store of a push
and the load of a pop (43_stack.md R140, R141). -/

namespace Sys2Proof.Machine

theorem State.decSp_sp_toNat (s : State) : s.decSp.sp.toNat = (s.sp.toNat + 255) % 256 := by
  rw [State.decSp_sp, ← decremented_eq, BitVec.toNat_ofNat, Nat.mod_mod]

theorem State.incSp_sp_toNat (s : State) : s.incSp.sp.toNat = (s.sp.toNat + 1) % 256 := by
  rw [State.incSp_sp, ← incremented_eq, BitVec.toNat_ofNat, Nat.mod_mod]

/-- In a canonical memory the byte stored at the decremented stack pointer is read back there. -/
theorem State.read_store_decSp {s : State} (h : s.mem.wf) (v : Byte) :
    (s.mem.write (s.sp - 1).toNat v).read s.decSp.sp.toNat = v := by
  rw [State.decSp_sp]
  exact Memory.read_write_same h.1 _ v

/-- The value a push stores: the decrement comes first, so R7 reads as the decremented stack pointer (D14). -/
theorem State.decSp_reg_pushed (s : State) (i : RegIdx) :
    s.decSp.reg i = if i = spIdx then s.decSp.sp else s.reg i := by
  rw [State.decSp_reg, State.decSp_sp]

/-- A register other than R7 keeps the loaded byte, the increment of the stack pointer coming after it. -/
theorem State.setReg_incSp_reg {i : RegIdx} (h : i ≠ spIdx) (s : State) (v : Byte) :
    (s.setReg i v).incSp.reg i = v := by
  rw [State.incSp_reg, if_neg h, State.setReg_reg_same]

theorem State.setReg_sp_other {i : RegIdx} (h : i ≠ spIdx) (s : State) (v : Byte) : (s.setReg i v).sp = s.sp :=
  State.setReg_reg_other s v h.symm

theorem State.setReg_sp_same (s : State) (v : Byte) : (s.setReg spIdx v).sp = v :=
  State.setReg_reg_same s spIdx v

end Sys2Proof.Machine
end

section
/-! The statements of the family of 43_stack.md. -/

namespace Sys2Proof.Proofs

open Sys2Proof.Machine

/-- Settles O5: the bytes decode by the opcode map, `exec_push` gives the next state, which is the store at the
decremented stack pointer; a bad operand faults before the handler, and at 255 the operand does not fit. -/
theorem pushDecrementsThenStores : Obligations.PushDecrementsThenStores := by
  unfold Obligations.PushDecrementsThenStores
  refine ⟨decodeOpcode_byte .push, decode_one_operand (o := .push) (by decide), fun i s => ?_,
    fun r s h => settle_withReg_bad _ h s _, faultsPastEnd (o := .push) (by decide)⟩
  refine ⟨_, exec_push i s, State.decSp_sp_toNat s, rfl, fun hm => ?_, rfl, keepsAllBut_store_setPc s _ _⟩
  rw [State.setPc_mem, State.setMem_mem, State.read_store_decSp hm, State.decSp_reg_pushed]

/-- Settles O6: the bytes decode by the opcode map, `exec_pop` gives the next state, in which the increment reads the
old stack pointer unless the load went to R7 itself; a bad operand faults before the handler, and at 255 the operand
does not fit. -/
theorem popLoadsThenIncrements : Obligations.PopLoadsThenIncrements := by
  unfold Obligations.PopLoadsThenIncrements
  refine ⟨decodeOpcode_byte .pop, decode_one_operand (o := .pop) (by decide), fun i s => ?_,
    fun r s h => settle_withReg_bad _ h s _, faultsPastEnd (o := .pop) (by decide)⟩
  refine ⟨_, exec_pop i s, fun hi => ⟨?_, ?_⟩, fun hi => ?_, rfl, keepsAllBut_setReg_incSp_setPc s i _ _⟩
  · rw [State.setPc_reg, State.setReg_incSp_reg hi]
  · rw [State.setPc_sp, State.incSp_sp_toNat, State.setReg_sp_other hi]
  · rw [State.setPc_sp, State.incSp_sp_toNat, hi, State.setReg_sp_same]

end Sys2Proof.Proofs
end

section
/-! SUPPORT. The decoder, the fetch and the step of an instruction without operand bytes, and the opcode fetch beyond
memory (40_fetch_execute.md R102, R103). -/

namespace Sys2Proof

theorem decode_no_operand {o : Opcode} (h : operandCount o.byte = 0) (rest : List Byte) :
    decode (o.byte :: rest) = .ok (assemble o 0 0, rest) := by
  simp [decode, instrLen, h, operandBytes]

/-- HALT and RET, the instructions without operand bytes, are known by their opcode. -/
theorem Instr.eq_assemble_of_no_operands {i : Instr} (h : i.operands.length = 0) : i = assemble i.opcode 0 0 := by
  cases i with
  | halt | ret => rfl
  | ldi | prn | mul | push | pop | call | add | jmp | jeq | jne | cmp => exact nomatch h

end Sys2Proof

namespace Sys2Proof.Machine

/-- The fetch of a defined opcode without operand bytes answers its instruction at every address up to 255: each fault
of a fetch needs a `pc` past 255, an opcode outside the map or an operand byte. -/
theorem State.fetchInstr_no_operand {s : State} {o : Opcode} (hop : s.mem.read s.pc = o.byte) (hpc : s.pc ≤ 255)
    (hn : operandCount o.byte = 0) : s.fetchInstr = .ok (assemble o 0 0) := by
  cases hf : s.fetchInstr with
  | ok i =>
    have hi : i.opcode = o := Opcode.byte_injective ((State.fetchInstr_ok hf).1.symm.trans hop)
    have hlen : i.operands.length = 0 := by rw [← operandCount_opcode, hi, hn]
    rw [Instr.eq_assemble_of_no_operands hlen, hi]
  | error e =>
    rcases State.fetchInstr_error hf with ⟨hlt, -⟩ | ⟨-, hnone, -⟩ | ⟨-, -, hend, -⟩
    · omega
    · rw [hop, opcodeOf_byte] at hnone
      exact nomatch hnone
    · rw [hop, hn] at hend
      omega

theorem step_no_operand {s : State} {o : Opcode} (hn : operandCount o.byte = 0) (h : Fetches s o.byte) :
    step s = exec (assemble o 0 0) s := by
  obtain ⟨hrun, hpc, hop⟩ := h
  rw [step_running hrun, State.fetchInstr_no_operand hop hpc hn]

theorem State.fetchInstr_beyond_memory {s : State} (h : 255 < s.pc) :
    s.fetchInstr = .error (outOfRange .fetch s.pc) := by
  rw [State.fetchInstr, State.fetchOpcode, State.fetchByte_eq, if_pos h]

theorem step_beyond_memory {s : State} (hrun : s.run = .running) (h : 255 < s.pc) :
    Raises s (outOfRange .fetch s.pc) := by
  rw [Raises, step_running hrun, State.fetchInstr_beyond_memory h]

end Sys2Proof.Machine
end

section
/-! SUPPORT. The return address of a CALL as a byte, and the two updates of a RET (44_control_flow.md R150, R151). -/

namespace Sys2Proof.Machine

/-- A return address inside memory is stored whole. -/
theorem returnAddress_toNat {p : Nat} (h : p + 2 ≤ 255) : (BitVec.ofNat 8 (p + 2)).toNat = p + 2 := by
  rw [BitVec.toNat_ofNat, Nat.mod_eq_of_lt (by omega)]

/-- The increment of the stack pointer after a write of `pc` is a write of R7 and of `pc`. -/
theorem State.setPc_incSp (s : State) (p : Nat) : (s.setPc p).incSp = (s.setReg spIdx (s.sp + 1)).setPc p := by
  rw [State.incSp_eq]
  rfl

theorem keepsAllBut_setPc_incSp (s : State) (p : Nat) : KeepsAllBut s (s.setPc p).incSp [spIdx] [] := by
  rw [State.setPc_incSp]
  exact keepsAllBut_setReg_setPc s spIdx _ p

end Sys2Proof.Machine
end

section
/-! The statements of the family of 44_control_flow.md. -/

namespace Sys2Proof.Proofs

open Sys2Proof.Machine

/-- Settles O7: the bytes decode by the opcode map; where the return address is a byte, `exec_call` gives the store at
the decremented stack pointer, and the target is read after it; where it is not, `exec_call_far` gives the fault; a bad
operand faults before the handler, and at 255 the operand does not fit. -/
theorem callPushesTheReturnAddress : Obligations.CallPushesTheReturnAddress := by
  unfold Obligations.CallPushesTheReturnAddress
  refine ⟨decodeOpcode_byte .call, decode_one_operand (o := .call) (by decide), fun i s hret => ?_, exec_call_far,
    fun r s h => settle_withReg_bad _ h s _, faultsPastEnd (o := .call) (by decide)⟩
  refine ⟨_, exec_call i s hret, State.decSp_sp_toNat s, rfl, fun hm => ?_, ?_, keepsAllBut_store_setPc s _ _⟩
  · rw [State.setPc_mem, State.setMem_mem, State.read_store_decSp hm, returnAddress_toNat hret]
  · rw [State.setPc_pc, State.decSp_reg_pushed]

/-- Settles O8: the bytes decode by the opcode map, `exec_ret` gives the next state in every state, which differs in R7
and `pc` only, and without an operand byte the fetch never reaches past address 255. -/
theorem retPopsThePc : Obligations.RetPopsThePc := by
  unfold Obligations.RetPopsThePc
  exact ⟨decodeOpcode_byte .ret, decode_no_operand (o := .ret) (by decide),
    fun s => ⟨_, exec_ret s, rfl, State.incSp_sp_toNat _, keepsAllBut_setPc_incSp s _⟩,
    fun _ => step_no_operand (o := .ret) (by decide)⟩

/-- Settles O10: the bytes decode by the opcode map, `exec_jeq` gives the next state, a write of `pc` with the target
chosen by `FL.E`; a bad operand faults before the handler, and at 255 the operand does not fit. -/
theorem jeqBranchesOnEqual : Obligations.JeqBranchesOnEqual := by
  unfold Obligations.JeqBranchesOnEqual
  refine ⟨decodeOpcode_byte .jeq, decode_one_operand (o := .jeq) (by decide), fun i s => ?_,
    fun r s h => settle_withReg_bad _ h s _, faultsPastEnd (o := .jeq) (by decide)⟩
  exact ⟨_, exec_jeq i s, fun he => if_pos he, fun he => if_neg (Bool.eq_false_iff.1 he), keepsAllBut_setPc s _⟩

/-- Settles O11: as O10, by `exec_jne`, with the two targets the other way round. -/
theorem jneBranchesOnNotEqual : Obligations.JneBranchesOnNotEqual := by
  unfold Obligations.JneBranchesOnNotEqual
  refine ⟨decodeOpcode_byte .jne, decode_one_operand (o := .jne) (by decide), fun i s => ?_,
    fun r s h => settle_withReg_bad _ h s _, faultsPastEnd (o := .jne) (by decide)⟩
  exact ⟨_, exec_jne i s, fun he => if_neg (Bool.eq_false_iff.1 he), fun he => if_pos he, keepsAllBut_setPc s _⟩

/-- Settles O9: the bytes decode by the opcode map, `exec_jmp` gives the next state, a write of `pc` alone; a bad
operand faults before the handler, and at 255 the operand does not fit. -/
theorem jmpGoesToTheRegister : Obligations.JmpGoesToTheRegister := by
  unfold Obligations.JmpGoesToTheRegister
  exact ⟨decodeOpcode_byte .jmp, decode_one_operand (o := .jmp) (by decide),
    fun i s => ⟨_, exec_jmp i s, rfl, keepsAllBut_setPc s _⟩,
    fun r s h => settle_withReg_bad _ h s _, faultsPastEnd (o := .jmp) (by decide)⟩

/-- Settles O12: the bytes decode by the opcode map, `exec_halt` writes the run state alone, and without an operand byte
the fetch never reaches past address 255; a step needs a running machine, and at 256 the opcode fetch itself faults. -/
theorem haltStopsWhereItStands : Obligations.HaltStopsWhereItStands := by
  unfold Obligations.HaltStopsWhereItStands
  refine ⟨decodeOpcode_byte .halt, decode_no_operand (o := .halt) (by decide),
    fun s => ⟨_, exec_halt s, rfl, rfl, fun _ _ => rfl, fun _ _ => rfl, rfl, rfl, rfl⟩,
    fun _ => step_no_operand (o := .halt) (by decide), fun s t u ht hu => ?_, fun s hrun hpc => ?_⟩
  · obtain rfl := Host.Outcome.next.inj ((exec_halt s).symm.trans ht)
    exact nomatch (step_next_cases hu).1
  · have hfault := step_beyond_memory hrun (by omega)
    rwa [hpc] at hfault

end Sys2Proof.Proofs
end

section
/-! SUPPORT. The comparison's flags by the case of the unsigned order, and each flag by the relation it stands for
(45_compare.md R170, R171). -/

namespace Sys2Proof.Machine

theorem compareFlags_of_eq {a b : Byte} (h : a.toNat = b.toNat) : compareFlags a b = ⟨true, false, false⟩ :=
  if_pos h

theorem compareFlags_of_lt {a b : Byte} (h : a.toNat < b.toNat) : compareFlags a b = ⟨false, true, false⟩ := by
  rw [compareFlags, if_neg h.ne, if_pos h, Flags.clear]

theorem compareFlags_of_gt {a b : Byte} (h : b.toNat < a.toNat) : compareFlags a b = ⟨false, false, true⟩ := by
  rw [compareFlags, if_neg h.ne', if_neg h.not_gt, Flags.clear]

theorem compareFlags_e_iff (a b : Byte) : (compareFlags a b).e = true ↔ a = b := by
  rw [compareFlags_eq_order, decide_eq_true_iff, BitVec.toNat_inj]

theorem compareFlags_l_iff (a b : Byte) : (compareFlags a b).l = true ↔ a.toNat < b.toNat := by
  rw [compareFlags_eq_order, decide_eq_true_iff]

theorem compareFlags_g_iff (a b : Byte) : (compareFlags a b).g = true ↔ b.toNat < a.toNat := by
  rw [compareFlags_eq_order, decide_eq_true_iff]

end Sys2Proof.Machine
end

section
/-! The statements of the family of 45_compare.md. -/

namespace Sys2Proof.Proofs

open Sys2Proof.Machine

/-- Settles O13: the bytes decode by the opcode map, `exec_cmp` gives the next state, which differs in the flags and
`pc` only, its flags being the comparison's; each operand check faults before the handler, and at 254 and 255 the two
operands do not fit. -/
theorem cmpSetsTheFlags : Obligations.CmpSetsTheFlags := by
  unfold Obligations.CmpSetsTheFlags
  refine ⟨decodeOpcode_byte .cmp, decode_two_operands (o := .cmp) (by decide), fun i j s => ?_,
    fun a b s h => settle_withReg_bad _ h s _, fun i b s h => settle_withReg_second_bad _ i h s _,
    faultsPastEnd (o := .cmp) (by decide)⟩
  exact ⟨_, exec_cmp i j s, compareFlags_e_iff _ _, compareFlags_l_iff _ _, compareFlags_g_iff _ _, rfl,
    fun _ _ => rfl, fun _ _ => rfl, rfl, rfl, rfl⟩

/-- Settles O41: the two tests of `compareFlags` tell the three cases of the unsigned order apart. -/
theorem compareSetsExactlyOneFlag : Obligations.CompareSetsExactlyOneFlag := by
  unfold Obligations.CompareSetsExactlyOneFlag
  exact fun a b => ⟨compareFlags_of_eq, compareFlags_of_lt, compareFlags_of_gt⟩

end Sys2Proof.Proofs
end

section
/-! SUPPORT. The step on an opcode outside the map, the number of such opcodes, and the form of a step into FAULTED
(60_exceptions.md R201, R207). -/

namespace Sys2Proof.Machine

/-- The fetch of a byte outside the map raises UnrecognizedOpcode with that byte: it is not HALT's, and the decoder has
no row for it (60_exceptions.md R201). -/
theorem State.fetchInstr_undefined {s : State} (hpc : s.pc ≤ 255) (h : s.mem.read s.pc ∉ definedOpcodes) :
    s.fetchInstr = .error (unrecognizedOpcode (s.mem.read s.pc)) := by
  have hhalt : s.mem.read s.pc ≠ 0x01#8 := fun heq => h (heq ▸ by decide)
  have hnone := decodeOpcode_eq_none.2 (opcodeOf_eq_none.2 h)
  rw [State.fetchInstr, State.fetchOpcode, State.fetchByte_eq, if_neg (by omega)]
  simp only [if_neg hhalt, hnone]

theorem step_undefined {s : State} {op : Byte} (h : Fetches s op) (hop : op ∉ definedOpcodes) :
    Raises s (unrecognizedOpcode op) := by
  obtain ⟨hrun, hpc, rfl⟩ := h
  rw [Raises, step_running hrun, State.fetchInstr_undefined hpc hop]

/-- The numbers of the defined opcodes are the byte values that the map lists. -/
theorem filter_defined_perm :
    ((List.range 256).filter fun n => BitVec.ofNat 8 n ∈ definedOpcodes).Perm (definedOpcodes.map BitVec.toNat) := by
  refine (List.perm_ext_iff_of_nodup (List.nodup_range.filter _) (by decide)).2 fun n => ?_
  rw [List.mem_filter, List.mem_range, decide_eq_true_iff, List.mem_map]
  constructor
  · rintro ⟨hn, hmem⟩
    exact ⟨_, hmem, Nat.mod_eq_of_lt hn⟩
  · rintro ⟨op, hmem, rfl⟩
    exact ⟨op.isLt, by rwa [BitVec.ofNat_toNat, BitVec.setWidth_eq]⟩

/-- Of the 256 byte values, all but the 13 of the map are undefined opcodes (30_encoding.md R88). -/
theorem length_filter_undefined :
    ((List.range 256).filter fun n => BitVec.ofNat 8 n ∉ definedOpcodes).length = 243 := by
  have hdefined : ((List.range 256).filter fun n => BitVec.ofNat 8 n ∈ definedOpcodes).length = 13 :=
    filter_defined_perm.length_eq
  have hsplit := (List.range 256).length_eq_length_filter_add fun n => BitVec.ofNat 8 n ∈ definedOpcodes
  simp only [List.length_range, ← decide_not] at hsplit
  omega

/-- No effect of an instruction enters FAULTED. -/
theorem Effect.not_faulted {i : Instr} {s t : State} (h : Effect i s t) (hrun : s.run = .running) :
    t.run ≠ .faulted := by
  rw [h.run_eq, hrun]
  split <;> decide

/-- A step into FAULTED is fault entry from the state before it (60_exceptions.md R207). -/
theorem eq_raise_of_step_faulted {s t : State} (h : step s = .next t) (ht : t.run = .faulted) :
    ∃ e, t = s.raise e := by
  obtain ⟨hrun, hraise | ⟨i, -, he⟩⟩ := step_next_effect h
  · exact hraise
  · exact absurd ht (he.not_faulted hrun)

end Sys2Proof.Machine
end

section
/-! The statements of the family of 60_exceptions.md. -/

namespace Sys2Proof.Proofs

open Sys2Proof.Machine

/-- Settles O20: the decoder has no row for a byte outside the map, so the fetch raises; `State.raise` writes the
record; and the bytes outside the map are those that the 13 leave of 256. -/
theorem undefinedOpcodesAreUnrecognized : Obligations.UndefinedOpcodesAreUnrecognized := by
  unfold Obligations.UndefinedOpcodesAreUnrecognized
  exact ⟨fun s op hf hop => ⟨step_undefined hf hop, s.raise_fault _⟩, rfl, length_filter_undefined⟩

/-- Settles O25: `State.raise` writes the run state and the record alone, and every step into FAULTED is such an entry
from the state before it. -/
theorem faultsArePrecise : Obligations.FaultsArePrecise := by
  unfold Obligations.FaultsArePrecise
  refine ⟨fun s e => ⟨s.raise_run e, s.raise_fault e⟩, fun s t h ht => ?_⟩
  obtain ⟨e, rfl⟩ := eq_raise_of_step_faulted h ht
  exact ⟨s.raise_mem e, s.raise_x e, s.raise_fl e, s.raise_out e, s.raise_pc e, e, s.raise_fault e⟩

end Sys2Proof.Proofs
end

section
/-! SUPPORT. The encoder and the decoder as inverses, and everything the decoder can answer for a list of bytes
(30_encoding.md sections 1, 2 and 4). -/

namespace Sys2Proof

theorem decode_encode_append (i : Instr) (rest : List Byte) : decode (encode i ++ rest) = .ok (i, rest) := by
  have hn := operandCount_opcode i
  cases i with
  | halt | ret => exact decode_no_operand hn rest
  | prn r | push r | pop r | call r | jmp r | jeq r | jne r => exact decode_one_operand hn r rest
  | ldi a b | mul a b | add a b | cmp a b => exact decode_two_operands hn a b rest

/-- The encoding of an assembled instruction: the opcode byte and the first bytes given, as many as it has. -/
theorem encode_assemble (o : Opcode) (b c : Byte) :
    encode (assemble o b c) = o.byte :: [b, c].take (operandCount o.byte) := by
  rw [encode, assemble_opcode, assemble_operands]

/-- What `operandBytes` refuses, if it refuses: a list too short, with the first operand byte it lacks. -/
theorem operandBytes_error {n : Nat} {bs : List Byte} {e : DecodeError} (h : operandBytes n bs = .error e) :
    bs.length < n ∧ e = .missingOperand (bs.length + 1) := by
  match n, bs with
  | 0, _ => simp [operandBytes] at h
  | 1, _ :: _ => simp [operandBytes] at h
  | n + 2, _ :: _ :: _ => simp [operandBytes] at h
  | n + 2, [_] => exact ⟨by simp, (Except.error.inj h).symm⟩
  | 1, [] => exact ⟨by simp, (Except.error.inj h).symm⟩
  | n + 2, [] => exact ⟨by simp, (Except.error.inj h).symm⟩

/-- Everything the decoder can answer: there is no byte, the first one is outside the map, operand bytes are missing, or
the list begins with the encoding of the instruction answered. -/
theorem decode_cases (bytes : List Byte) :
    (bytes = [] ∧ decode bytes = .error .noBytes) ∨
    (∃ op tail, bytes = op :: tail ∧ op ∉ Machine.definedOpcodes ∧ decode bytes = .error (.unrecognizedOpcode op)) ∨
    (∃ o tail, bytes = Opcode.byte o :: tail ∧ tail.length < operandCount o.byte ∧
      decode bytes = .error (.missingOperand (tail.length + 1))) ∨
    (∃ i rest, bytes = encode i ++ rest ∧ decode bytes = .ok (i, rest)) := by
  cases bytes with
  | nil => exact .inl ⟨rfl, rfl⟩
  | cons op tail =>
    refine .inr ?_
    cases hd : decodeOpcode op with
    | none =>
      exact .inl ⟨op, tail, rfl, opcodeOf_eq_none.1 (decodeOpcode_eq_none.1 hd), by simp only [decode, hd]⟩
    | some d =>
      obtain ⟨hop, hd'⟩ := decodeOpcode_eq_some.1 hd
      have hlen : d.len - 1 = operandCount d.name.byte := by rw [hd', hop, instrLen, Nat.add_sub_cancel_left]
      refine .inr ?_
      cases ho : operandBytes (operandCount d.name.byte) tail with
      | error e =>
        obtain ⟨hlt, rfl⟩ := operandBytes_error ho
        exact .inl ⟨d.name, tail, by rw [hop], hlt, by simp only [decode, hd, hlen, ho]⟩
      | ok r =>
        obtain ⟨b, c, rest⟩ := r
        refine .inr ⟨assemble d.name b c, rest, ?_, by simp only [decode, hd, hlen, ho]⟩
        rw [encode_assemble, hop, List.cons_append, ← operandBytes_ok ho]

theorem eq_encode_of_decode_ok {bytes rest : List Byte} {i : Instr} (h : decode bytes = .ok (i, rest)) :
    bytes = encode i ++ rest := by
  rcases decode_cases bytes with ⟨-, hd⟩ | ⟨_, _, -, -, hd⟩ | ⟨_, _, -, -, hd⟩ | ⟨j, rest', hbytes, hd⟩
  · exact nomatch hd.symm.trans h
  · exact nomatch hd.symm.trans h
  · exact nomatch hd.symm.trans h
  · obtain ⟨rfl, rfl⟩ := Prod.mk.inj (Except.ok.inj (hd.symm.trans h))
    exact hbytes

/-- Bytes outside the map are no opcode's, so those the decoder has a row for are the ones listed. -/
theorem decodeOpcode_isNone_iff {op : Byte} : (decodeOpcode op).isNone = true ↔ op ∉ Machine.definedOpcodes := by
  rw [Option.isNone_iff_eq_none, decodeOpcode_eq_none, opcodeOf_eq_none]

theorem decodeOpcode_isSome_iff {op : Byte} : (decodeOpcode op).isSome = true ↔ op ∈ Machine.definedOpcodes := by
  rw [Option.isSome_iff_ne_none, ne_eq, decodeOpcode_eq_none, opcodeOf_eq_none, not_not]

/-- A byte of the map is the byte of an opcode. -/
theorem exists_opcode_of_defined {op : Byte} (h : op ∈ Machine.definedOpcodes) : ∃ o : Opcode, op = o.byte := by
  obtain ⟨d, hd⟩ := Option.isSome_iff_exists.1 (decodeOpcode_isSome_iff.2 h)
  exact ⟨d.name, (decodeOpcode_eq_some.1 hd).1⟩

theorem operandCount_le_two (o : Opcode) : operandCount o.byte ≤ 2 := by
  rw [operandCount_byte]
  split <;> omega

/-- Bits 7:6 as a number (30_encoding.md R82). -/
theorem operandCount_eq_div (op : Byte) : operandCount op = op.toNat / 64 := by
  have hop := op.isLt
  rw [operandCount, BitVec.toNat_and, BitVec.toNat_ushiftRight, Nat.shiftRight_eq_div_pow]
  show op.toNat / 64 &&& 2 ^ 2 - 1 = op.toNat / 64
  rw [Nat.and_two_pow_sub_one_eq_mod]
  omega

/-- Bit 4 as a number (30_encoding.md R83). -/
theorem setsPC_iff_div (o : Opcode) : setsPC o.byte = true ↔ o.byte.toNat / 16 % 2 = 1 := by
  cases o <;> decide

end Sys2Proof
end

section
/-! The statements of the family of 30_encoding.md. -/

namespace Sys2Proof.Proofs

open Sys2Proof.Machine

/-- Settles O14: by the number of operand bytes of the instruction, which its opcode byte gives. -/
theorem decodeInvertsEncode : Obligations.DecodeInvertsEncode := by
  unfold Obligations.DecodeInvertsEncode
  exact decode_encode_append

/-- Settles O15: of the decoder's answers only the last is an instruction, and there the list begins with the
instruction's encoding. -/
theorem encodeInvertsDecode : Obligations.EncodeInvertsDecode := by
  unfold Obligations.EncodeInvertsDecode
  exact fun _ _ _ => eq_encode_of_decode_ok

/-- Settles O16: each word is the encoding of the instruction named, with nothing after it. -/
theorem wordsOfTheOpcodeMapDecode : Obligations.WordsOfTheOpcodeMapDecode := by
  unfold Obligations.WordsOfTheOpcodeMapDecode
  exact ⟨decode_encode_append (.ldi 0 8) [], decode_encode_append (.mul 0 1) [], decode_encode_append (.push 3) [],
    decode_encode_append (.call 1) [], decode_encode_append .ret [], decode_encode_append .halt [],
    decode_encode_append (.cmp 1 0) []⟩

/-- Settles O17: a descriptor is the row of its byte, whose length and sets-PC bit are the byte's own fields; the bytes
with a row are those listed, and those without one are counted as the bytes not listed. -/
theorem descriptorsComeFromTheOpcodeByte : Obligations.DescriptorsComeFromTheOpcodeByte := by
  unfold Obligations.DescriptorsComeFromTheOpcodeByte
  refine ⟨fun op d hd => ?_, fun op => decodeOpcode_isSome_iff, ?_⟩
  · obtain ⟨rfl, hd⟩ := decodeOpcode_eq_some.1 hd
    rw [hd]
    exact ⟨by rw [instrLen, operandCount_eq_div], setsPC_iff_div _, rfl⟩
  · rw [← length_filter_undefined]
    congr 2
    funext n
    rw [Bool.eq_iff_iff, decodeOpcode_isNone_iff, decide_eq_true_iff]

end Sys2Proof.Proofs
end

section
/-! SUPPORT. The bytes from an address upward, and what the fetch and the step make of the bytes from `pc` upward
(40_fetch_execute.md R101 to R104). -/

namespace Sys2Proof.Machine

@[simp] theorem State.bytesFrom_length (s : State) (p : Nat) : (s.bytesFrom p).length = 256 - p := by
  simp [State.bytesFrom]

theorem State.getElem_bytesFrom (s : State) (p : Nat) {k : Nat} (hk : k < (s.bytesFrom p).length) :
    (s.bytesFrom p)[k] = s.mem.read (p + k) := by
  simp [State.bytesFrom]

/-- Some bytes lie from an address upward exactly where there is room for them and each cell holds its byte. -/
theorem State.prefix_bytesFrom_iff {s : State} {p : Nat} {bs : List Byte} :
    bs <+: s.bytesFrom p ↔ bs.length ≤ 256 - p ∧ ∀ k (hk : k < bs.length), s.mem.read (p + k) = bs[k] := by
  simp only [List.prefix_iff_getElem, State.bytesFrom_length, State.getElem_bytesFrom, exists_prop, eq_comm]

/-- The cells from an address upward end at 255: where they begin with a byte, the address is inside memory. -/
theorem State.bytesFrom_eq_cons {s : State} {p : Nat} {b : Byte} {bs : List Byte} (h : s.bytesFrom p = b :: bs) :
    s.mem.read p = b ∧ p + bs.length = 255 := by
  have hlen : 256 - p = bs.length + 1 := by rw [← s.bytesFrom_length, h, List.length_cons]
  obtain ⟨-, hcells⟩ := State.prefix_bytesFrom_iff.1 (h ▸ List.prefix_rfl : b :: bs <+: s.bytesFrom p)
  exact ⟨hcells 0 (Nat.succ_pos _), by omega⟩

theorem State.encode_prefix_of_fetchInstr {s : State} {i : Instr} (h : s.fetchInstr = .ok i) :
    encode i <+: s.bytesFrom s.pc := by
  obtain ⟨hop, hlen, hoperands⟩ := State.fetchInstr_ok h
  refine State.prefix_bytesFrom_iff.2 ⟨by rw [encode, List.length_cons]; omega, fun k hk => ?_⟩
  cases k with
  | zero => exact hop
  | succ k =>
    have hcell := hoperands k (Nat.lt_of_succ_lt_succ hk)
    rwa [Nat.add_assoc, Nat.add_comm 1 k] at hcell

/-- Where the bytes from `pc` upward begin with an encoding, the fetch answers the instruction: it cannot fault, and the
decoder tells which instruction the bytes begin with. -/
theorem State.fetchInstr_of_encode_prefix {s : State} {i : Instr} (h : encode i <+: s.bytesFrom s.pc) :
    s.fetchInstr = .ok i := by
  obtain ⟨rest, hi⟩ := h
  cases hf : s.fetchInstr with
  | ok j =>
    obtain ⟨rest', hj⟩ := State.encode_prefix_of_fetchInstr hf
    have hdecode := decode_encode_append i rest
    rw [hi, ← hj, decode_encode_append] at hdecode
    rw [(Prod.mk.inj (Except.ok.inj hdecode)).1]
  | error e =>
    obtain ⟨hop, hend⟩ := State.bytesFrom_eq_cons (bs := i.operands ++ rest) hi.symm
    rw [List.length_append] at hend
    rcases State.fetchInstr_error hf with ⟨hlt, -⟩ | ⟨-, hnone, -⟩ | ⟨-, -, hpast, -⟩
    · omega
    · rw [hop, opcodeOf_byte] at hnone
      exact nomatch hnone
    · rw [hop, operandCount_opcode] at hpast
      omega

/-- A defined opcode whose operands lie inside memory is fetched with the bytes after it. -/
theorem State.fetchInstr_inside {s : State} {o : Opcode} (hop : s.mem.read s.pc = o.byte)
    (hend : s.pc + operandCount o.byte ≤ 255) :
    s.fetchInstr = .ok (assemble o (s.mem.read (s.pc + 1)) (s.mem.read (s.pc + 2))) := by
  apply State.fetchInstr_of_encode_prefix
  have htwo := operandCount_le_two o
  rw [encode_assemble]
  refine State.prefix_bytesFrom_iff.2 ⟨by simp; omega, fun k hk => ?_⟩
  rw [List.length_cons, List.length_take] at hk
  match k with
  | 0 => exact hop
  | 1 | 2 => simp
  | k + 3 => simp at hk

theorem step_of_encode_prefix {s : State} {i : Instr} (hrun : s.run = .running)
    (h : encode i <+: s.bytesFrom s.pc) : step s = exec i s := by
  rw [step_running hrun, State.fetchInstr_of_encode_prefix h]

/-- A defined opcode whose operands reach past the last byte faults on address 256, the first one past it. -/
theorem step_past_end {s : State} {o : Opcode} (h : Fetches s o.byte) (hend : 255 < s.pc + operandCount o.byte) :
    Raises s (outOfRange .fetch 256) :=
  faultsPastEnd (ps := [s.pc]) (by simpa) s h (List.mem_singleton_self _)

/-- A placed word lies from `pc` upward, where three bytes fit (log entry 8). -/
theorem State.tableBytes_prefix_withFetchWord {s : State} (hm : s.mem.wf) (hpc : s.pc ≤ 253) (nbits w : Nat) :
    tableBytes nbits w <+: (s.withFetchWord nbits w).bytesFrom s.pc := by
  have hlen : (tableBytes nbits w).length = 3 := rfl
  exact State.prefix_bytesFrom_iff.2
    ⟨by omega, fun k hk => Memory.read_place_inside hm s.pc (tableBytes nbits w) hk (by omega)⟩

/-- The word of a table row that decodes is the encoding of its instruction, with bytes nobody reads after it. -/
theorem encode_prefix_tableBytes {nbits w : Nat} {i : Instr} (h : decodeTableWord nbits w = some i) :
    encode i <+: tableBytes nbits w := by
  rw [decodeTableWord] at h
  cases hd : decode (tableBytes nbits w) with
  | error e => simp [hd] at h
  | ok r =>
    obtain ⟨j, rest⟩ := r
    obtain rfl : j = i := by simpa [hd] using h
    exact ⟨rest, (eq_encode_of_decode_ok hd).symm⟩

end Sys2Proof.Machine
end

section
/-! The statements on the fetch and the step (40_fetch_execute.md, 70_reset_and_hazards.md section 1). -/

namespace Sys2Proof.Proofs

open Sys2Proof.Machine

/-- Settles O18: bytes that decode begin with the encoding of the instruction, which is what the fetch answers there. -/
theorem stepRunsTheDecodedInstruction : Obligations.StepRunsTheDecodedInstruction := by
  unfold Obligations.StepRunsTheDecodedInstruction
  exact fun s i rest hrun hd => step_of_encode_prefix hrun ⟨rest, (eq_encode_of_decode_ok hd).symm⟩

/-- Settles O19: by the decoder's four answers. The errors are no byte from `pc` upward, which puts `pc` past 255; a
byte outside the map at `pc`; and a defined opcode there whose operands reach past the last byte. -/
theorem stepFaultsWhereNothingDecodes : Obligations.StepFaultsWhereNothingDecodes := by
  unfold Obligations.StepFaultsWhereNothingDecodes
  intro s hrun
  rcases decode_cases (s.bytesFrom s.pc) with ⟨hbytes, hd⟩ | ⟨op, tail, hbytes, hop, hd⟩ |
    ⟨o, tail, hbytes, hlt, hd⟩ | ⟨i, rest, -, hd⟩ <;> rw [hd]
  · have hlen : 256 - s.pc = 0 := by rw [← s.bytesFrom_length, hbytes, List.length_nil]
    exact ⟨fun _ => step_beyond_memory hrun (by omega), nofun, nofun⟩
  · obtain ⟨hread, hend⟩ := State.bytesFrom_eq_cons hbytes
    refine ⟨nofun, fun op' he => ?_, nofun⟩
    obtain rfl : op = op' := by simpa using he
    exact step_undefined ⟨hrun, by omega, hread⟩ hop
  · obtain ⟨hread, hend⟩ := State.bytesFrom_eq_cons hbytes
    refine ⟨nofun, nofun, fun k he => ?_⟩
    obtain rfl : tail.length + 1 = k := by simpa using he
    exact ⟨by omega, step_past_end ⟨hrun, by omega, hread⟩ (by omega)⟩
  · exact ⟨nofun, nofun, nofun⟩

/-- Settles O47: the placed bytes lie from `pc` upward, where the next step fetches, and begin with the encoding of the
instruction they decode to. -/
theorem placedWordIsExecutedNext : Obligations.PlacedWordIsExecutedNext := by
  unfold Obligations.PlacedWordIsExecutedNext
  exact fun s nbits w i hm hrun hpc hd =>
    step_of_encode_prefix hrun ((encode_prefix_tableBytes hd).trans (s.tableBytes_prefix_withFetchWord hm hpc nbits w))

end Sys2Proof.Proofs
end

section
/-! SUPPORT. Which register operand of a fetched instruction is the first bad one, and where every check passes
(40_fetch_execute.md R105). -/

namespace Sys2Proof

/-- The operand byte that is reported: the first if it is a register operand and bad, else the second if it is (D9). -/
theorem firstBad_assemble (o : Opcode) (b c : Byte) :
    (assemble o b c).firstBad =
      if 1 ≤ operandCount o.byte ∧ 8 ≤ b.toNat then some b
      else if operandCount o.byte = 2 ∧ o ≠ .ldi ∧ 8 ≤ c.toNat then some c
      else none := by
  cases o with
  | halt | ret => rfl
  | ldi | prn | push | pop | call | jmp | jeq | jne =>
    by_cases hb : 8 ≤ b.toNat <;> simp [operandCount_byte, assemble, Instr.firstBad, Instr.regOperands, hb]
  | mul | add | cmp =>
    by_cases hb : 8 ≤ b.toNat <;> by_cases hc : 8 ≤ c.toNat <;>
      simp [operandCount_byte, assemble, Instr.firstBad, Instr.regOperands, hb, hc]

theorem opcode_of_assemble_eq {o : Opcode} {b c : Byte} {i : Instr} (h : assemble o b c = i) : o = i.opcode := by
  rw [← h, assemble_opcode]

theorem Opcode.byte_eq_iff {o o' : Opcode} : o.byte = o'.byte ↔ o = o' :=
  ⟨Opcode.byte_injective, congrArg _⟩

end Sys2Proof

namespace Sys2Proof.Machine

/-- A well-formed instruction has its effect, CALL where its return address is a byte. -/
theorem exec_of_wellFormed {i : Instr} {s : State} (hw : i.WellFormed) (hcall : ∀ r, i = .call r → s.pc + 2 ≤ 255) :
    ∃ t, exec i s = .next t ∧ Effect i s t := by
  rcases exec_cases i s with ⟨b, hb, -⟩ | ⟨r, hi, hfar, -⟩ | ⟨-, t, he, ht⟩
  · rw [Instr.firstBad_eq_none.2 hw] at hb
    exact nomatch hb
  · exact absurd (hcall _ hi) (by omega)
  · exact ⟨t, ht, he⟩

/-- No effect writes the fault record. -/
theorem Effect.fault_eq {i : Instr} {s t : State} (h : Effect i s t) : t.fault = s.fault := by
  cases i with
  | halt | ret => obtain rfl := h; rfl
  | ldi | prn | push | pop | jmp | jeq | jne => obtain ⟨_, _, rfl⟩ := h; rfl
  | call => obtain ⟨_, _, _, rfl⟩ := h; rfl
  | mul | add | cmp => obtain ⟨_, _, _, _, rfl⟩ := h; rfl

theorem Effect.keepsRun {i : Instr} {s t : State} (h : Effect i s t) (hi : i ≠ .halt) : KeepsRun s t :=
  ⟨by rw [h.run_eq, if_neg hi], h.fault_eq⟩

/-- A defined opcode whose operands lie inside memory is executed with the bytes after it. -/
theorem step_inside {s : State} {o : Opcode} (h : Fetches s o.byte) (hend : s.pc + operandCount o.byte ≤ 255) :
    step s = exec (assemble o (s.mem.read (s.pc + 1)) (s.mem.read (s.pc + 2))) s := by
  obtain ⟨hrun, -, hop⟩ := h
  rw [step_running hrun, State.fetchInstr_inside hop hend]

/-- The checks on a defined opcode other than HALT, in their order (60_exceptions.md section 3, D13): the operand
fetches, the register operands, CALL's return address. -/
theorem step_defined_in_check_order {s : State} {o : Opcode} (h : Fetches s o.byte) (hhalt : o ≠ .halt) :
    if 1 ≤ operandCount o.byte ∧ 255 < s.pc + 1 then Raises s (outOfRange .fetch (s.pc + 1))
    else if operandCount o.byte = 2 ∧ 255 < s.pc + 2 then Raises s (outOfRange .fetch (s.pc + 2))
    else if 1 ≤ operandCount o.byte ∧ 8 ≤ (s.mem.read (s.pc + 1)).toNat then
      Raises s (outOfRange .reg (s.mem.read (s.pc + 1)).toNat)
    else if operandCount o.byte = 2 ∧ o ≠ .ldi ∧ 8 ≤ (s.mem.read (s.pc + 2)).toNat then
      Raises s (outOfRange .reg (s.mem.read (s.pc + 2)).toNat)
    else if o = .call ∧ 255 < s.pc + 2 then Raises s (outOfRange .retAddr (s.pc + 2))
    else ∃ t, step s = .next t ∧ t.run = .running := by
  have ⟨hrun, hpc, _⟩ := h
  have htwo := operandCount_le_two o
  have hbad := firstBad_assemble o (s.mem.read (s.pc + 1)) (s.mem.read (s.pc + 2))
  by_cases hend1 : 1 ≤ operandCount o.byte ∧ 255 < s.pc + 1
  · rw [if_pos hend1, show s.pc + 1 = 256 by omega]
    exact step_past_end h (by omega)
  by_cases hend2 : operandCount o.byte = 2 ∧ 255 < s.pc + 2
  · rw [if_neg hend1, if_pos hend2, show s.pc + 2 = 256 by omega]
    exact step_past_end h (by omega)
  rw [if_neg hend1, if_neg hend2, Raises, Raises, Raises, step_inside h (by omega)]
  split_ifs at hbad ⊢ with hbad1 hbad2 hfar
  · exact exec_firstBad hbad s
  · exact exec_firstBad hbad s
  · obtain ⟨rfl, hlt⟩ := hfar
    have hone : operandCount Opcode.call.byte = 1 := operandCount_byte .call
    obtain ⟨i, hi⟩ := exists_regByte (b := s.mem.read (s.pc + 1)) (by omega)
    rw [hi]
    exact exec_call_far i s hlt
  · obtain ⟨t, ht, he⟩ := exec_of_wellFormed (s := s) (Instr.firstBad_eq_none.1 hbad) fun r hr =>
      Nat.le_of_not_lt fun hlt => hfar ⟨opcode_of_assemble_eq hr, hlt⟩
    have hne : assemble o (s.mem.read (s.pc + 1)) (s.mem.read (s.pc + 2)) ≠ .halt := fun hi =>
      hhalt (opcode_of_assemble_eq hi)
    exact ⟨t, ht, by rw [he.run_eq, if_neg hne, hrun]⟩

end Sys2Proof.Machine
end

section
/-! The statements on the order of the checks (40_fetch_execute.md R105, 60_exceptions.md section 3). -/

namespace Sys2Proof.Proofs

open Sys2Proof.Machine

/-- Settles O23: with its operands and CALL's return address in range an instruction has its effect; none writes the
fault record, and only HALT's the run state. -/
theorem wellFormedInstructionsExecute : Obligations.WellFormedInstructionsExecute := by
  unfold Obligations.WellFormedInstructionsExecute
  intro i s hw hcall
  obtain ⟨t, ht, he⟩ := exec_of_wellFormed hw hcall
  exact ⟨t, ht, he.fault_eq, he.run_eq⟩

/-- Settles O22: a bad register operand is the first bad one of its instruction, which faults on it; LDI with a good
register and RET are well formed, so they have their effect. -/
theorem registerOperandsAreCheckedInOrder : Obligations.RegisterOperandsAreCheckedInOrder := by
  unfold Obligations.RegisterOperandsAreCheckedInOrder
  refine ⟨fun r imm s => ⟨fun h => settle_withReg_bad _ h s _, fun h => ?_⟩, fun r s i hi h => ?_,
    fun a b s i hi => ⟨fun h => ?_, fun ha h => ?_⟩, fun s => ?_⟩
  · have hw : Instr.WellFormed (.ldi r imm) := by simpa [Instr.WellFormed, Instr.regOperands]
    obtain ⟨t, ht, he⟩ := exec_of_wellFormed (s := s) hw nofun
    exact ⟨t, ht, he.keepsRun nofun⟩
  · apply exec_firstBad
    fin_cases hi <;> simp [Instr.firstBad, Instr.regOperands, h]
  · apply exec_firstBad
    fin_cases hi <;> simp [Instr.firstBad, Instr.regOperands, h]
  · apply exec_firstBad
    fin_cases hi <;> simp [Instr.firstBad, Instr.regOperands, ha, h]
  · obtain ⟨t, ht, he⟩ := exec_of_wellFormed (i := .ret) (s := s) nofun nofun
    exact ⟨t, ht, he.keepsRun nofun⟩

/-- Settles O21: the fetch raises the first three conditions and, where an operand lies past the last byte, the next
two, at address 256; inside memory the instruction's first bad register operand or CALL's return address is raised, and
where there is neither the instruction has its effect, which keeps the run state. -/
theorem faultsAreReportedInCheckOrder : Obligations.FaultsAreReportedInCheckOrder := by
  unfold Obligations.FaultsAreReportedInCheckOrder
  rintro s op o1 o2 hrun hop rfl rfl
  by_cases hpc : 255 < s.pc
  · rw [if_pos hpc]
    exact step_beyond_memory hrun hpc
  have hf : Fetches s op := ⟨hrun, by omega, hop⟩
  by_cases hhalt : op = 0x01#8
  · rw [if_neg hpc, if_pos hhalt]
    subst hhalt
    exact ⟨_, step_no_operand (o := .halt) (by decide) hf, rfl⟩
  by_cases hdef : op ∈ definedOpcodes
  · rw [if_neg hpc, if_neg hhalt, if_neg (not_not.2 hdef)]
    obtain ⟨o, rfl⟩ := exists_opcode_of_defined hdef
    have hldi : o.byte ≠ 0x82#8 ↔ o ≠ .ldi := not_congr (Opcode.byte_eq_iff (o' := .ldi))
    have hcall : o.byte = 0x50#8 ↔ o = .call := Opcode.byte_eq_iff (o' := .call)
    simp only [hldi, hcall]
    exact step_defined_in_check_order hf fun ho => hhalt (ho ▸ rfl)
  · rw [if_neg hpc, if_neg hhalt, if_pos hdef]
    exact step_undefined hf hdef

end Sys2Proof.Proofs
end

section
/-! SUPPORT. What an effect does to the flags, the registers and `pc`, and which faults a step can take (10_state.md
sections 2 to 4; 60_exceptions.md section 1). -/

namespace Sys2Proof.Machine

theorem byte_le_255 (b : Byte) : b.toNat ≤ 255 := Nat.le_of_lt_succ b.isLt

/-- A comparison leaves exactly one flag set (45_compare.md R171). -/
theorem compareFlags_mem (a b : Byte) :
    compareFlags a b ∈ [Flags.mk true false false, Flags.mk false true false, Flags.mk false false true] := by
  rcases Nat.lt_trichotomy a.toNat b.toNat with h | h | h
  · rw [compareFlags_of_lt h]; decide
  · rw [compareFlags_of_eq h]; decide
  · rw [compareFlags_of_gt h]; decide

/-- Only CMP writes the flags, and it writes those of a comparison. -/
theorem Effect.fl_cases {i : Instr} {s t : State} (h : Effect i s t) :
    t.fl = s.fl ∨ i.opcode = .cmp ∧ ∃ a b, t.fl = compareFlags a b := by
  cases i with
  | cmp => obtain ⟨_, _, _, _, rfl⟩ := h; exact .inr ⟨rfl, _, _, rfl⟩
  | halt | ret => obtain rfl := h; exact .inl rfl
  | ldi | prn | push | pop | jmp | jeq | jne => obtain ⟨_, _, rfl⟩ := h; exact .inl rfl
  | call => obtain ⟨_, _, _, rfl⟩ := h; exact .inl rfl
  | mul | add => obtain ⟨_, _, _, _, rfl⟩ := h; exact .inl rfl

/-- Where all registers outside a list are kept, a register that changed is in the list. -/
theorem mem_of_reg_ne {s t : State} {ds : List RegIdx} (h : KeepsRegs s t ds) {j : RegIdx} (hj : t.reg j ≠ s.reg j) :
    j ∈ ds := by
  by_contra hnot
  exact hj (h j hnot)

/-- The registers an effect writes: the first operand's for LDI, ADD, MUL and POP, the stack pointer for PUSH, POP,
CALL and RET. -/
theorem Effect.reg_cases {i : Instr} {s t : State} (h : Effect i s t) {j : RegIdx} (hj : t.reg j ≠ s.reg j) :
    (i.opcode ∈ [.ldi, .add, .mul, .pop] ∧ i.operands[0]? = some (regByte j)) ∨
    (i.opcode ∈ [.push, .pop, .call, .ret] ∧ j = spIdx) := by
  cases i with
  | halt => obtain rfl := h; exact absurd rfl hj
  | prn | jmp | jeq | jne => obtain ⟨_, _, rfl⟩ := h; exact absurd rfl hj
  | cmp => obtain ⟨_, _, _, _, rfl⟩ := h; exact absurd rfl hj
  | ret =>
    obtain rfl := h
    exact .inr ⟨by decide, List.mem_singleton.1 (mem_of_reg_ne (keepsAllBut_setPc_incSp s _).1 hj)⟩
  | push =>
    obtain ⟨_, _, rfl⟩ := h
    exact .inr ⟨by simp [Instr.opcode], List.mem_singleton.1 (mem_of_reg_ne (keepsAllBut_store_setPc s _ _).1 hj)⟩
  | call =>
    obtain ⟨_, _, _, rfl⟩ := h
    exact .inr ⟨by simp [Instr.opcode], List.mem_singleton.1 (mem_of_reg_ne (keepsAllBut_store_setPc s _ _).1 hj)⟩
  | ldi =>
    obtain ⟨d, rfl, rfl⟩ := h
    obtain rfl := List.mem_singleton.1 (mem_of_reg_ne (keepsAllBut_setReg_setPc s d _ _).1 hj)
    exact .inl ⟨by simp [Instr.opcode], rfl⟩
  | mul | add =>
    obtain ⟨d, _, rfl, _, rfl⟩ := h
    obtain rfl := List.mem_singleton.1 (mem_of_reg_ne (keepsAllBut_setReg_setPc s d _ _).1 hj)
    exact .inl ⟨by simp [Instr.opcode], rfl⟩
  | pop =>
    obtain ⟨d, rfl, rfl⟩ := h
    rcases List.mem_pair.1 (mem_of_reg_ne (keepsAllBut_setReg_incSp_setPc s d _ _).1 hj) with rfl | hsp
    · exact .inl ⟨by simp [Instr.opcode], rfl⟩
    · exact .inr ⟨by simp [Instr.opcode], hsp⟩

/-- Where an effect leaves `pc`: at a byte's value, where it was, or one instruction further, the last only without the
sets-PC bit or as a branch not taken. -/
theorem Effect.pc_cases {i : Instr} {s t : State} (h : Effect i s t) :
    t.pc ≤ 255 ∨ t.pc = s.pc ∨
    (t.pc = s.pc + (encode i).length ∧
      (setsPC i.opcode.byte = false ∨ i.opcode = .jeq ∨ i.opcode = .jne)) := by
  cases i with
  | halt => obtain rfl := h; exact .inr (.inl rfl)
  | ret => obtain rfl := h; exact .inl (byte_le_255 _)
  | call => obtain ⟨_, _, _, rfl⟩ := h; exact .inl (byte_le_255 _)
  | jmp => obtain ⟨_, _, rfl⟩ := h; exact .inl (byte_le_255 _)
  | ldi | prn | push | pop => obtain ⟨_, _, rfl⟩ := h; exact .inr (.inr ⟨rfl, .inl (setsPC_byte _)⟩)
  | mul | add | cmp => obtain ⟨_, _, _, _, rfl⟩ := h; exact .inr (.inr ⟨rfl, .inl (setsPC_byte _)⟩)
  | jeq =>
    obtain ⟨i, _, rfl⟩ := h
    rw [State.setPc_pc]
    split
    · exact .inl (byte_le_255 _)
    · exact .inr (.inr ⟨rfl, .inr (.inl rfl)⟩)
  | jne =>
    obtain ⟨i, _, rfl⟩ := h
    rw [State.setPc_pc]
    split
    · exact .inr (.inr ⟨rfl, .inr (.inr rfl)⟩)
    · exact .inl (byte_le_255 _)

/-- A fetched instruction lies inside memory, so its effect leaves `pc` at most one past the last cell (10_state.md R37,
D7). -/
theorem Effect.pc_le_256 {i : Instr} {s t : State} (h : Effect i s t) (hi : s.fetchInstr = .ok i) : t.pc ≤ 256 := by
  obtain ⟨-, hle, -⟩ := State.fetchInstr_ok hi
  have hlen : (encode i).length = i.operands.length + 1 := rfl
  rcases h.pc_cases with hbyte | hstay | ⟨hadv, -⟩ <;> omega

/-- The faults a step can take, each with what is known of `pc` and of the info (60_exceptions.md R201, R202): no opcode
byte, an opcode outside the map, no operand byte, no such register, no room for the return address in a byte. -/
inductive StepFault (s : State) : FaultEvent → Prop where
  | opcodeFetch (hpc : 255 < s.pc) : StepFault s (outOfRange .fetch s.pc)
  | unrecognized (op : Byte) (hpc : s.pc ≤ 255) (hop : opcodeOf op = none) : StepFault s (unrecognizedOpcode op)
  | operandFetch (hpc : 254 ≤ s.pc) : StepFault s (outOfRange .fetch 256)
  | register (b : Byte) (hb : 8 ≤ b.toNat) : StepFault s (outOfRange .reg b.toNat)
  | returnAddress (hpc : s.pc = 254) : StepFault s (outOfRange .retAddr 256)

/-- A step is one of the faults above or the effect of the instruction fetched. -/
theorem step_fault_or_effect {s t : State} (h : step s = .next t) :
    (∃ e, StepFault s e ∧ t = s.raise e) ∨ ∃ i, s.fetchInstr = .ok i ∧ Effect i s t := by
  obtain ⟨-, ⟨e, hf, ht⟩ | ⟨i, hi, hexec⟩⟩ := step_next_cases h
  · refine .inl ⟨e, ?_, ht⟩
    rcases State.fetchInstr_error hf with ⟨hpc, rfl⟩ | ⟨hpc, hop, rfl⟩ | ⟨hpc, -, -, rfl⟩
    · exact .opcodeFetch hpc
    · exact .unrecognized _ hpc hop
    · exact .operandFetch hpc
  · rcases exec_cases i s with ⟨b, hb, hbad⟩ | ⟨r, rfl, hlt, hfar⟩ | ⟨-, u, he, hu⟩
    · have h8 : 8 ≤ b.toNat := by simpa using List.find?_some hb
      exact .inl ⟨_, .register b h8, Host.Outcome.next.inj (hexec.symm.trans hbad)⟩
    · obtain ⟨-, hle, -⟩ := State.fetchInstr_ok hi
      have hpc : s.pc = 254 := by simp only [Instr.operands, List.length_cons, List.length_nil] at hle; omega
      rw [hpc] at hfar
      exact .inl ⟨_, .returnAddress hpc, Host.Outcome.next.inj (hexec.symm.trans hfar)⟩
    · obtain rfl := Host.Outcome.next.inj (hexec.symm.trans hu)
      exact .inr ⟨i, hi, he⟩

end Sys2Proof.Machine
end

section
/-! SUPPORT. Two states that fetch the same instruction at the same `pc`: their steps fault alike or have the effects of
that instruction (10_state.md sections 4 and 8). -/

namespace Sys2Proof.Machine

/-- An effect is what the instruction answers. -/
theorem Effect.exec_eq {i : Instr} {s t : State} (h : Effect i s t) : exec i s = .next t := by
  cases i with
  | halt => obtain rfl := h; exact exec_halt s
  | ret => obtain rfl := h; exact exec_ret s
  | ldi => obtain ⟨i, rfl, rfl⟩ := h; exact exec_ldi i _ s
  | prn => obtain ⟨i, rfl, rfl⟩ := h; exact exec_prn i s
  | push => obtain ⟨i, rfl, rfl⟩ := h; exact exec_push i s
  | pop => obtain ⟨i, rfl, rfl⟩ := h; exact exec_pop i s
  | call => obtain ⟨i, rfl, hret, rfl⟩ := h; exact exec_call i s hret
  | jmp => obtain ⟨i, rfl, rfl⟩ := h; exact exec_jmp i s
  | jeq => obtain ⟨i, rfl, rfl⟩ := h; exact exec_jeq i s
  | jne => obtain ⟨i, rfl, rfl⟩ := h; exact exec_jne i s
  | mul => obtain ⟨i, j, rfl, rfl, rfl⟩ := h; exact exec_mul i j s
  | add => obtain ⟨i, j, rfl, rfl, rfl⟩ := h; exact exec_add i j s
  | cmp => obtain ⟨i, j, rfl, rfl, rfl⟩ := h; exact exec_cmp i j s

/-- The two states fetch the same at the same `pc` and are in the same run state. -/
def FetchesAlike (s s' : State) : Prop := s'.run = s.run ∧ s'.pc = s.pc ∧ s'.fetchInstr = s.fetchInstr

theorem fetchesAlike_setFlags (s : State) (f : Flags) : FetchesAlike s (s.setFlags f) := ⟨rfl, rfl, rfl⟩

theorem fetchesAlike_withOut (s : State) (o : List Byte) : FetchesAlike s (s.withOut o) := ⟨rfl, rfl, rfl⟩

/-- A step that is fault entry is so, with the same fault, from every state that fetches alike: the checks look at the
instruction and at `pc` alone. Any other step is the effect of the instruction fetched, and an effect of it from a state
that fetches alike is the step from there. -/
theorem step_cases_alike {s t : State} (h : step s = .next t) :
    (∃ e, t = s.raise e ∧ ∀ s', FetchesAlike s s' → step s' = .next (s'.raise e)) ∨
    (∃ i, s.fetchInstr = .ok i ∧ Effect i s t ∧ ∀ s' t', FetchesAlike s s' → Effect i s' t' → step s' = .next t') := by
  obtain ⟨hrun, ⟨e, he, rfl⟩ | ⟨i, hi, hexec⟩⟩ := step_next_cases h
  · refine .inl ⟨e, rfl, fun s' ⟨hrun', _, hfetch⟩ => ?_⟩
    rw [step_running (hrun'.trans hrun), hfetch, he]
  · have hstep : ∀ s', FetchesAlike s s' → step s' = exec i s' := fun s' ⟨hrun', _, hfetch⟩ => by
      rw [step_running (hrun'.trans hrun), hfetch, hi]
    rcases exec_cases i s with ⟨b, hb, hbad⟩ | ⟨r, rfl, hlt, hfar⟩ | ⟨-, u, he, hu⟩
    · exact .inl ⟨_, Host.Outcome.next.inj (hexec.symm.trans hbad),
        fun s' hs' => (hstep s' hs').trans (exec_firstBad hb s')⟩
    · refine .inl ⟨_, Host.Outcome.next.inj (hexec.symm.trans hfar), fun s' hs' => ?_⟩
      have hpc : s'.pc = s.pc := hs'.2.1
      rw [hstep s' hs', exec_call_far r s' (by omega), hpc]
    · obtain rfl := Host.Outcome.next.inj (hexec.symm.trans hu)
      exact .inr ⟨i, hi, he, fun s' t' hs' ht' => (hstep s' hs').trans ht'.exec_eq⟩

/-- With other flags in place an instruction has the same effect but for the flags, if they agree on `FL.E` where it is
a branch. -/
theorem Effect.setFlags {i : Instr} {s t : State} (h : Effect i s t) {f : Flags}
    (hf : i.opcode ∉ [.jeq, .jne] ∨ f.e = s.fl.e) :
    ∃ g, Effect i (s.setFlags f) (t.setFlags g) ∧ (i.opcode ≠ .cmp → g = f) ∧ (g = f ∨ g = t.fl) := by
  cases i with
  | cmp a b =>
    obtain ⟨i, j, rfl, rfl, rfl⟩ := h
    exact ⟨_, ⟨i, j, rfl, rfl, rfl⟩, fun hne => absurd rfl hne, .inr rfl⟩
  | halt | ret => obtain rfl := h; exact ⟨f, rfl, fun _ => rfl, .inl rfl⟩
  | ldi | prn | push | pop | jmp => obtain ⟨i, rfl, rfl⟩ := h; exact ⟨f, ⟨i, rfl, rfl⟩, fun _ => rfl, .inl rfl⟩
  | call => obtain ⟨i, rfl, hret, rfl⟩ := h; exact ⟨f, ⟨i, rfl, hret, rfl⟩, fun _ => rfl, .inl rfl⟩
  | mul | add => obtain ⟨i, j, rfl, rfl, rfl⟩ := h; exact ⟨f, ⟨i, j, rfl, rfl, rfl⟩, fun _ => rfl, .inl rfl⟩
  | jeq | jne =>
    obtain ⟨i, rfl, rfl⟩ := h
    have he : f.e = s.fl.e := hf.resolve_left (by simp [Instr.opcode])
    exact ⟨f, ⟨i, rfl, by rw [State.setFlags_fl, he]; rfl⟩, fun _ => rfl, .inl rfl⟩

/-- With another output stream in place an instruction has the same effect and appends the same values. -/
theorem Effect.withOut {i : Instr} {s t : State} (h : Effect i s t) :
    ∃ vs, t.out = s.out ++ vs ∧ ∀ o, Effect i (s.withOut o) (t.withOut (o ++ vs)) := by
  cases i with
  | prn => obtain ⟨i, rfl, rfl⟩ := h; exact ⟨_, rfl, fun o => ⟨i, rfl, rfl⟩⟩
  | halt | ret =>
    obtain rfl := h
    exact ⟨[], (List.append_nil _).symm, fun o => by rw [List.append_nil]; rfl⟩
  | ldi | push | pop | jmp | jeq | jne =>
    obtain ⟨i, rfl, rfl⟩ := h
    exact ⟨[], (List.append_nil _).symm, fun o => by rw [List.append_nil]; exact ⟨i, rfl, rfl⟩⟩
  | call =>
    obtain ⟨i, rfl, hret, rfl⟩ := h
    exact ⟨[], (List.append_nil _).symm, fun o => by rw [List.append_nil]; exact ⟨i, rfl, hret, rfl⟩⟩
  | mul | add | cmp =>
    obtain ⟨i, j, rfl, rfl, rfl⟩ := h
    exact ⟨[], (List.append_nil _).symm, fun o => by rw [List.append_nil]; exact ⟨i, j, rfl, rfl, rfl⟩⟩

end Sys2Proof.Machine
end

section
/-! The statements on what a step writes and what it reads (10_state.md sections 2 to 4 and 8; 60_exceptions.md
section 1). -/

namespace Sys2Proof.Proofs

open Sys2Proof.Machine

/-- Settles O27: an effect keeps the fault record, and none of the faults a step can take has a reserved cause or
kind. -/
theorem reservedCausesAreNeverRecorded : Obligations.ReservedCausesAreNeverRecorded := by
  unfold Obligations.ReservedCausesAreNeverRecorded
  intro s t h
  rcases step_fault_or_effect h with ⟨e, hf, rfl⟩ | ⟨i, -, he⟩
  · refine .inr ⟨_, s.raise_fault e, ?_⟩
    cases hf <;> exact ⟨nofun, nofun⟩
  · exact .inl he.fault_eq

/-- Settles O28: fault entry keeps the flags, and of the effects only CMP's writes them, with a comparison's. -/
theorem flagsAreWrittenOnlyByCmp : Obligations.FlagsAreWrittenOnlyByCmp := by
  unfold Obligations.FlagsAreWrittenOnlyByCmp
  intro s t h hne
  rcases step_fault_or_effect h with ⟨e, -, rfl⟩ | ⟨i, hi, he⟩
  · exact absurd (s.raise_fl e) hne
  · obtain ⟨hop, hle, -⟩ := State.fetchInstr_ok hi
    obtain ⟨hcmp, a, b, hfl⟩ := he.fl_cases.resolve_left hne
    exact ⟨by omega, by rw [hop, hcmp]; rfl, hfl ▸ compareFlags_mem a b⟩

/-- Settles O29: the fetch reads no flag, fault entry keeps them, and with other flags an instruction has the same
effect if a branch finds the same `FL.E`. -/
theorem flagsAreReadOnlyByBranches : Obligations.FlagsAreReadOnlyByBranches := by
  unfold Obligations.FlagsAreReadOnlyByBranches
  intro s t f h hf
  rcases step_cases_alike h with ⟨e, rfl, hraise⟩ | ⟨i, hi, he, hstep⟩
  · exact ⟨f, hraise _ (fetchesAlike_setFlags s f), fun _ => rfl, .inl rfl⟩
  · rw [(State.fetchInstr_ok hi).1] at hf ⊢
    have hbranch : i.opcode ∉ [.jeq, .jne] ∨ f.e = s.fl.e :=
      hf.imp_left fun hnot hop => hnot (List.mem_map_of_mem (f := Opcode.byte) hop)
    obtain ⟨g, heg, hcmp, hg⟩ := he.setFlags hbranch
    exact ⟨g, hstep _ _ (fetchesAlike_setFlags s f) heg, fun hne => hcmp fun hop => hne (hop ▸ rfl), hg⟩

/-- Settles O32: the fetch does not read the output, fault entry keeps it, and an instruction appends the same values to
any output. -/
theorem outputIsNeverRead : Obligations.OutputIsNeverRead := by
  unfold Obligations.OutputIsNeverRead
  intro s t h
  rcases step_cases_alike h with ⟨e, rfl, hraise⟩ | ⟨i, -, he, hstep⟩
  · refine ⟨[], (List.append_nil _).symm, fun o => ?_⟩
    rw [List.append_nil]
    exact hraise _ (fetchesAlike_withOut s o)
  · obtain ⟨vs, hout, heo⟩ := he.withOut
    exact ⟨vs, hout, fun o => hstep _ _ (fetchesAlike_withOut s o) (heo o)⟩

/-- Settles O33: fault entry keeps the registers, and an effect writes the register of the first operand byte, which
lies after the opcode, or the stack pointer. -/
theorem registersAreWrittenAsTabled : Obligations.RegistersAreWrittenAsTabled := by
  unfold Obligations.RegistersAreWrittenAsTabled
  intro s t j h hj
  rcases step_fault_or_effect h with ⟨e, -, rfl⟩ | ⟨i, hi, he⟩
  · exact absurd (s.raise_reg e j) hj
  · obtain ⟨hop, -, hoperands⟩ := State.fetchInstr_ok hi
    rw [hop]
    refine (he.reg_cases hj).imp (fun ⟨hmem, hfirst⟩ => ?_) fun ⟨hmem, hsp⟩ => ?_
    · obtain ⟨hlt, hfirst⟩ := List.getElem?_eq_some_iff.1 hfirst
      exact ⟨List.mem_map_of_mem (f := Opcode.byte) hmem, (hoperands 0 hlt).trans hfirst⟩
    · exact ⟨List.mem_map_of_mem (f := Opcode.byte) hmem, hsp⟩

/-- Settles O34: fault entry and HALT keep `pc`, a target is a byte, and an advance goes at most to the address after
the last operand byte, which lies inside memory. -/
theorem pcReaches256OnlySequentially : Obligations.PcReaches256OnlySequentially := by
  unfold Obligations.PcReaches256OnlySequentially
  intro s t hs h
  rcases step_fault_or_effect h with ⟨e, -, rfl⟩ | ⟨i, hi, he⟩
  · exact ⟨hs, .inl⟩
  · refine ⟨he.pc_le_256 hi, fun ht => ?_⟩
    rcases he.pc_cases with hbyte | hstay | ⟨hadv, hkind⟩
    · omega
    · exact .inl (hstay ▸ ht)
    · refine .inr ⟨⟨i.opcode, (encode i).length, setsPC i.opcode.byte⟩, ?_, hadv.symm.trans ht, hkind⟩
      rw [(State.fetchInstr_ok hi).1, decodeOpcode_byte, Laws.encode_length]

end Sys2Proof.Proofs
end

section
/-! SUPPORT. Canonical memories as functions of the address (log entry 6). -/

namespace Sys2Proof.Machine

theorem Memory.wf_of_cons {c : Host.Cell} {m : Memory} (h : Memory.wf (c :: m)) : Memory.wf m :=
  ⟨h.1.of_cons, fun d hd => h.2 d (List.mem_cons_of_mem _ hd)⟩

/-- In a canonical memory no cell lists an address below that of the first, nor that address again. -/
theorem Memory.read_tail_of_le {b : Nat} {w : Byte} {m : Memory} (h : Memory.wf ((b, w) :: m)) {a : Nat} (ha : a ≤ b) :
    m.read a = Memory.unlisted :=
  Memory.read_of_not_listed fun _ hc => Nat.ne_of_gt (Nat.lt_of_le_of_lt ha (List.rel_of_pairwise_cons h.1 hc))

theorem Memory.read_head (b : Nat) (w : Byte) (m : Memory) : Memory.read ((b, w) :: m) b = w := by
  rw [Memory.read_list_cons, if_pos rfl]

/-- A canonical memory reads as an unlisted cell below its first cell and not at it. -/
theorem Memory.read_of_lt_head {b : Nat} {w : Byte} {m : Memory} (h : Memory.wf ((b, w) :: m)) {a : Nat} (ha : a < b) :
    Memory.read ((b, w) :: m) a = Memory.unlisted := by
  rw [Memory.read_list_cons, if_neg ha.ne, Memory.read_tail_of_le h ha.le]

theorem Memory.read_head_ne {b : Nat} {w : Byte} {m : Memory} (h : Memory.wf ((b, w) :: m)) :
    Memory.read ((b, w) :: m) b ≠ Memory.unlisted := by
  rw [Memory.read_head]
  exact (h.2 _ List.mem_cons_self).2

/-- The first cells of two canonical memories that read alike: neither address is below the other. -/
theorem Memory.head_le_of_read_eq {b d : Nat} {w v : Byte} {m n : Memory} (hm : Memory.wf ((b, w) :: m))
    (hn : Memory.wf ((d, v) :: n)) (h : Memory.read ((b, w) :: m) b = Memory.read ((d, v) :: n) b) : d ≤ b := by
  by_contra hlt
  exact Memory.read_head_ne hm (h.trans (Memory.read_of_lt_head hn (Nat.lt_of_not_le hlt)))

/-- Canonical memories are determined by what their 256 cells read. -/
theorem Memory.ext_of_wf {m n : Memory} (hm : m.wf) (hn : n.wf) (h : ∀ a, a ≤ 255 → m.read a = n.read a) : m = n := by
  induction m generalizing n with
  | nil =>
    cases n with
    | nil => rfl
    | cons c n => exact absurd (h c.1 (hn.2 c List.mem_cons_self).1).symm (Memory.read_head_ne hn)
  | cons c m ih =>
    cases n with
    | nil => exact absurd (h c.1 (hm.2 c List.mem_cons_self).1) (Memory.read_head_ne hm)
    | cons d n =>
      obtain ⟨b, w⟩ := c
      obtain ⟨d, v⟩ := d
      have hb := (hm.2 _ List.mem_cons_self).1
      have hd := (hn.2 _ List.mem_cons_self).1
      obtain rfl : b = d := Nat.le_antisymm (Memory.head_le_of_read_eq hn hm (h d hd).symm)
        (Memory.head_le_of_read_eq hm hn (h b hb))
      have hw := h b hb
      rw [Memory.read_head, Memory.read_head] at hw
      subst hw
      rw [ih (Memory.wf_of_cons hm) (Memory.wf_of_cons hn) fun a ha => ?_]
      by_cases hab : a = b
      · rw [hab, Memory.read_tail_of_le hm le_rfl, Memory.read_tail_of_le hn le_rfl]
      · have hread := h a ha
        rwa [Memory.read_list_cons, Memory.read_list_cons, if_neg hab, if_neg hab] at hread

theorem State.memRead_eq (s : State) {a : Nat} (ha : a ≤ 255) : s.memRead a = .ok (s.mem.read a) := if_pos ha

/-- A write changes no other cell, so no read elsewhere tells it, inside memory or past it. -/
theorem State.memRead_setMem_write_other (s : State) {a b : Nat} (v : Byte) (h : b ≠ a) :
    (s.setMem (s.mem.write a v)).memRead b = s.memRead b := by
  rw [State.memRead, State.memRead, State.setMem_mem, Memory.read_write_other _ _ h]

end Sys2Proof.Machine
end

section
/-! The statements of 20_memory.md section 1. -/

namespace Sys2Proof.Proofs

open Sys2Proof.Machine

/-- Settles O37: inside memory `MemWrite` is a write of the memory array, which keeps the canonical form, is read back
and leaves every other address alone; past address 255 neither access gets to the array. -/
theorem memoryReadsBackWhatWasWritten : Obligations.MemoryReadsBackWhatWasWritten := by
  unfold Obligations.MemoryReadsBackWhatWasWritten
  refine fun s a v => ⟨fun ha hm => ⟨_, if_pos ha, Memory.write_wf hm ha v, ?_,
    fun b hb => s.memRead_setMem_write_other v hb⟩, fun ha => ⟨if_neg ha.not_ge, if_neg ha.not_ge⟩⟩
  rw [State.memRead_eq _ ha, State.setMem_mem, Memory.read_write_same hm.1]

/-- Settles O38: by induction on the first memory; two first cells have the same address, the lower one being read as
an unlisted cell in the other memory otherwise, and the same byte. -/
theorem equalCellsAreEqualMemories : Obligations.EqualCellsAreEqualMemories := by
  unfold Obligations.EqualCellsAreEqualMemories
  exact fun _ _ => Memory.ext_of_wf

end Sys2Proof.Proofs
end

section
/-! SUPPORT. A store at the decremented stack pointer and the load that follows (43_stack.md R142; 44_control_flow.md
R156; 20_memory.md section 4). -/

namespace Sys2Proof.Machine

theorem State.fetchOpcode_byte (s : State) (a : Byte) : s.fetchOpcode a.toNat = .ok (s.mem.read a.toNat) := by
  rw [State.fetchOpcode, State.fetchByte_eq, if_neg (byte_le_255 a).not_gt]

/-- What PUSH and CALL store is read back through the stack pointer they leave. -/
theorem State.read_stored {s : State} (h : s.mem.wf) (v : Byte) (p : Nat) :
    ((s.decSp.setMem (s.mem.write (s.sp - 1).toNat v)).setPc p).mem.read
      ((s.decSp.setMem (s.mem.write (s.sp - 1).toNat v)).setPc p).sp.toNat = v := by
  rw [State.setPc_mem, State.setMem_mem, State.setPc_sp, State.setMem_sp, State.read_store_decSp h]

/-- The register updates of a POP after those of a PUSH bring every register back: R7 is the old stack pointer again,
also where it is itself the register pushed and popped (D14). -/
theorem State.push_pop_reg (s : State) (i j : RegIdx) : (s.decSp.setReg i (s.decSp.reg i)).incSp.reg j = s.reg j := by
  have hsame : ∀ k, (s.decSp.setReg i (s.decSp.reg i)).reg k = s.decSp.reg k := fun k => by
    rw [State.setReg_reg]
    split
    · next hk => rw [hk]
    · rfl
  rw [State.incSp_reg]
  split
  · next hj => rw [State.sp_eq_reg, hsame, ← State.sp_eq_reg, State.decSp_sp, hj, sub_add_cancel, State.sp_eq_reg]
  · next hj => rw [hsame, State.decSp_reg, if_neg hj]

end Sys2Proof.Machine
end

section
/-! The statements on the stack (43_stack.md R142, 44_control_flow.md R156, 20_memory.md section 4). -/

namespace Sys2Proof.Proofs

open Sys2Proof.Machine

/-- Settles O35: the POP loads through the decremented stack pointer what the PUSH stored there and increments it back;
only the PUSH writes memory, one cell. -/
theorem pushThenPopRestores : Obligations.PushThenPopRestores := by
  unfold Obligations.PushThenPopRestores
  intro i s hm
  have hpop := exec_pop i ((s.decSp.setMem (s.mem.write (s.sp - 1).toNat (s.decSp.reg i))).setPc (s.pc + 2))
  rw [State.read_stored hm] at hpop
  refine ⟨_, _, exec_push i s, hpop, State.x_ext (s.push_pop_reg i), rfl, ?_, fun j _ => s.push_pop_reg i j,
    fun a ha => ?_, rfl, rfl, rfl, rfl⟩
  · rw [← State.decSp_reg]
    exact Memory.read_write_same hm.1 _ _
  · exact Memory.read_write_other _ _ (by simpa using ha)

/-- Settles O36: the RET loads through the stack pointer the CALL left the return address the CALL stored, which fits a
byte, and increments the stack pointer back. -/
theorem callThenRetResumesAfterTheCall : Obligations.CallThenRetResumesAfterTheCall := by
  unfold Obligations.CallThenRetResumesAfterTheCall
  refine fun i s hm hret => ⟨_, exec_call i s hret, rfl, fun v hsp hcell => ⟨_, exec_ret v, ?_, ?_⟩⟩
  · rw [State.incSp_pc, State.setPc_pc, hsp, hcell, State.read_stored hm, returnAddress_toNat hret]
  · rw [State.incSp_sp, State.setPc_sp, hsp, State.setPc_sp, State.setMem_sp, State.decSp_sp, sub_add_cancel]

/-- Settles O39: the opcode fetch reads the memory array as PUSH and CALL leave it, at the stack pointer they leave. -/
theorem nextFetchSeesTheStackWrite : Obligations.NextFetchSeesTheStackWrite := by
  unfold Obligations.NextFetchSeesTheStackWrite
  refine fun i s hm => ⟨⟨_, exec_push i s, ?_⟩, fun hret => ⟨_, exec_call i s hret, ?_⟩⟩
  · rw [State.fetchOpcode_byte, State.read_stored hm]
    rfl
  · rw [State.fetchOpcode_byte, State.read_stored hm]

end Sys2Proof.Proofs
end

section
/-! SUPPORT. Cut runs (40_fetch_execute.md R111): a step at a time, and where they stop. -/

namespace Sys2Proof.Machine

theorem runFor_succ_of_step {s t : State} (h : step s = .next t) (k : Nat) : runFor (k + 1) s = runFor k t := by
  rw [runFor, h]

/-- A machine that is not running stays as it is. -/
theorem runFor_of_not_running {s : State} (h : s.run ≠ .running) (k : Nat) : runFor k s = s := by
  cases k with
  | zero => rfl
  | succ k =>
    obtain ⟨f, hf⟩ := step_stops h
    rw [runFor, hf]

theorem runFor_add (j k : Nat) (s : State) : runFor (j + k) s = runFor k (runFor j s) := by
  induction j generalizing s with
  | zero => rw [Nat.zero_add, runFor]
  | succ j ih =>
    by_cases hrun : s.run = .running
    · obtain ⟨t, ht⟩ := step_answers_next hrun
      rw [Nat.succ_add, runFor_succ_of_step ht, runFor_succ_of_step ht, ih]
    · simp only [runFor_of_not_running hrun]

theorem Reachable.runFor {image : List Nat} {spReset : Byte} {s : State} (h : Reachable image spReset s) (k : Nat) :
    Reachable image spReset (runFor k s) := by
  induction k generalizing s with
  | zero => exact h
  | succ k ih =>
    by_cases hrun : s.run = .running
    · obtain ⟨t, ht⟩ := step_answers_next hrun
      rw [runFor_succ_of_step ht]
      exact ih (.next s t h ht)
    · rwa [runFor_of_not_running hrun]

theorem State.setReg_setReg_same (s : State) (i : RegIdx) (v w : Byte) : (s.setReg i w).setReg i v = s.setReg i v := by
  simp only [State.setReg, Vector.set_set]

end Sys2Proof.Machine
end

section
/-! The statements on runs and on the first steps after construction (40_fetch_execute.md sections 1 and 6;
70_reset_and_hazards.md). -/

namespace Sys2Proof.Proofs

open Sys2Proof.Machine

/-- Settles O43: a machine that is not running has no next state and a running one has, and a run follows them one by
one. -/
theorem runsStopOnlyInTerminalStates : Obligations.RunsStopOnlyInTerminalStates := by
  unfold Obligations.RunsStopOnlyInTerminalStates
  refine ⟨fun k s h => runFor_of_not_running h k, runFor_add, fun s h => ?_, fun image spReset k s h => h.runFor k⟩
  obtain ⟨t, ht⟩ := step_answers_next h
  exact ⟨t, ht, runFor_succ_of_step ht 0, runFor_succ_of_step ht⟩

/-- Settles O45: the core of the empty image reads 0 at address 0, which is no opcode's byte, and at the model's value
of `SP_RESET` it is the reset state. -/
theorem emptyImageFaultsAtOnce : Obligations.EmptyImageFaultsAtOnce := by
  unfold Obligations.EmptyImageFaultsAtOnce
  have hok : ImageOk [] := by decide
  refine ⟨fun spReset => ⟨_, construct_of_imageOk hok spReset, ?_⟩, ?_⟩
  · exact step_undefined ⟨rfl, Nat.zero_le _, read_place_beyond_image (image := []) (Nat.zero_le _)⟩ (by decide)
  · rw [construct_of_imageOk hok]
    rfl

/-- Settles O46: LDI R7 overwrites the register it is given, so a write of R7 before it does not show. -/
theorem ldiOfTheStackPointerForgetsItsValue : Obligations.LdiOfTheStackPointerForgetsItsValue := by
  unfold Obligations.LdiOfTheStackPointerForgetsItsValue
  intro s v w
  refine ⟨_, exec_ldi spIdx v s, ?_, ?_⟩
  · rw [State.setPc_sp, State.setReg_sp_same]
  · rw [exec_ldi, State.setReg_setReg_same, State.setReg_pc]

end Sys2Proof.Proofs
end

section
/-! SUPPORT. The invariant: what an effect and a fault do to each of its parts (10_state.md sections 3 to 5). -/

namespace Sys2Proof.Machine

theorem Effect.mem_wf {i : Instr} {s t : State} (h : Effect i s t) (hm : s.mem.wf) : t.mem.wf := by
  rcases h.mem_cases with hmem | ⟨-, v, hmem⟩ <;> rw [hmem]
  · exact hm
  · exact Memory.write_byte_wf hm _ v

theorem Effect.fl_reachable {i : Instr} {s t : State} (h : Effect i s t) (hf : s.fl.reachable = true) :
    t.fl.reachable = true := by
  rcases h.fl_cases with hfl | ⟨-, a, b, hfl⟩ <;> rw [hfl]
  · exact hf
  · exact compareFlags_reachable a b

/-- The fault record of a machine that is not FAULTED is absent, and then its part of the invariant holds. -/
theorem State.faultOk_iff_of_not_faulted {s : State} (h : s.run ≠ .faulted) : s.faultOk = true ↔ s.fault = none := by
  cases hr : s.run with
  | faulted => exact absurd hr h
  | running | halted => cases hf : s.fault <;> simp [State.faultOk, hr, hf]

/-- A fault that a step takes at a `pc` of at most 256 leaves a record whose parts belong together. -/
theorem StepFault.record_ok {s : State} {e : FaultEvent} (h : StepFault s e) (hpc : s.pc ≤ 256) :
    FaultRecord.ok ⟨e.cause, s.pc, e.info⟩ = true := by
  cases h with
  | opcodeFetch hlt => simp [FaultRecord.ok, outOfRange]; omega
  | unrecognized op hle hop => simp [FaultRecord.ok, unrecognizedOpcode, hle, hop]
  | operandFetch hle => simp [FaultRecord.ok, outOfRange, hle]
  | register b hb => simp [FaultRecord.ok, outOfRange, hb, byte_le_255]
  | returnAddress heq => simp [FaultRecord.ok, outOfRange, heq]

theorem State.raise_faultOk {s : State} {e : FaultEvent} (h : StepFault s e) (hpc : s.pc ≤ 256) :
    (s.raise e).faultOk = true := by
  simp [State.faultOk, h.record_ok hpc]

theorem State.inv_step {s t : State} (hs : s.Inv) (h : step s = .next t) : t.Inv := by
  have hrun := (step_next_cases h).1
  obtain ⟨hm, hpc, hfl, hfault⟩ := hs
  rcases step_fault_or_effect h with ⟨e, hf, rfl⟩ | ⟨i, hi, he⟩
  · exact ⟨hm, hpc, hfl, State.raise_faultOk hf hpc⟩
  · rw [State.faultOk_iff_of_not_faulted (by rw [hrun]; decide)] at hfault
    exact ⟨he.mem_wf hm, he.pc_le_256 hi, he.fl_reachable hfl,
      (State.faultOk_iff_of_not_faulted (he.not_faulted hrun)).2 (he.fault_eq.trans hfault)⟩

theorem construct_inv {image : List Nat} {spReset : Byte} {s : State} (h : construct image spReset = some s) :
    s.Inv := by
  obtain ⟨-, rfl⟩ := construct_eq_some h
  exact ⟨Memory.place_wf (m := []) (by decide) 0 _, Nat.zero_le _, rfl, rfl⟩

theorem Reachable.inv {image : List Nat} {spReset : Byte} {s : State} (h : Reachable image spReset s) : s.Inv := by
  induction h with
  | start s hc => exact construct_inv hc
  | next s t _ ht ih => exact State.inv_step ih ht

theorem Flags.mem_of_reachable {f : Flags} (h : f.reachable = true) :
    f ∈ [Flags.mk false false false, Flags.mk true false false, Flags.mk false true false,
      Flags.mk false false true] := by
  simpa [Flags.reachable, Flags.clear, or_assoc] using h

end Sys2Proof.Machine
end

section
/-! The statements on the invariant. -/

namespace Sys2Proof.Proofs

open Sys2Proof.Machine

/-- Settles O48: fault entry writes a record whose parts belong together and nothing else of the invariant; an effect
keeps memory's form, leaves `pc` at most one past the last cell, writes the flags of a comparison or none, and leaves
the absent fault record absent. -/
theorem stepKeepsTheInvariant : Obligations.StepKeepsTheInvariant := by
  unfold Obligations.StepKeepsTheInvariant
  exact fun _ _ => State.inv_step

/-- Settles O49: placing an image keeps the canonical form of the empty memory, and the rest is at its reset value. -/
theorem constructedMachinesMeetTheInvariant : Obligations.ConstructedMachinesMeetTheInvariant := by
  unfold Obligations.ConstructedMachinesMeetTheInvariant
  exact ⟨fun _ _ _ => construct_inv, by decide⟩

/-- Settles O50: by induction on the run, the invariant holding at construction and being kept by every step. -/
theorem reachableStatesMeetTheInvariant : Obligations.ReachableStatesMeetTheInvariant := by
  unfold Obligations.ReachableStatesMeetTheInvariant
  intro image spReset s h
  have ⟨_, _, hfl, hfault⟩ := h.inv
  exact ⟨h.inv, Flags.mem_of_reachable hfl, fun hrun => (State.faultOk_iff_of_not_faulted hrun).1 hfault⟩

end Sys2Proof.Proofs
end
